-- ==== Sys2Proof/Word.lean ====
section
/-! DEFINITION. The word type and the other widths of the machine (`00_scope.md` rules R5 and R6).
A word is what the spec treats as bits: register contents, memory cells, instruction words. The program
counter and the address field share one 8-bit type, because a jump copies the field into the counter. A
register index is never shifted or masked once decoded, so it is a `Fin`, not a bit vector. -/

namespace Sys2Proof

/-- A word: 16 bits, unsigned; the unit of instruction encoding and of data (R5 `WORD_BITS`, R6). -/
abbrev Word := BitVec 16

/-- The 8-bit `addr` field and the 8-bit program counter (R5 `ADDR_BITS`, `PC_BITS`). -/
abbrev Addr := BitVec 8

/-- The 8-bit opcode field, bits 15 to 8 of a word (R5 `OPCODE_BITS`, R51). -/
abbrev Opcode := BitVec 8

/-- A register index, 0 to 15 (R5 `NREG`, `REG_INDEX_BITS`, R10). -/
abbrev RegIndex := Fin 16

end Sys2Proof
end

