-- ==== Sys2Proof/Config.lean ====
section
/-! DEFINITION. The implementation parameters of `00_scope.md` rule R5 and the address map of
`20_memory.md` rule R31. `MEM_WORDS` is a parameter of the machine: the memory value in `State` carries its
own size, and `memWords` is the value this hardware gives it (DESIGN CHOICE, notes/assumptions/1.md). There is no free
value here: the spec decides every value the source leaves open. -/

namespace Sys2Proof.Config

/-- `MEM_WORDS` of this hardware (R5, D1). -/
def memWords : Nat := 64

/-- The largest `MEM_WORDS` a model must accept (R5). -/
def maxMemWords : Nat := 256

/-- `CODE_BASE` (R5): where the loader puts the program, a convention only (R31). -/
def codeBase : Nat := 0

/-- `CODE_END` (R5), a convention only (R31). -/
def codeEnd : Nat := 31

/-- `DATA_BASE` (R5): where the loader's cursor starts (R152). -/
def dataBase : Nat := 32

/-- `DATA_END` (R5), a convention only (R31). -/
def dataEnd : Nat := 63

/-- `RESULT_ADDR` (R5): the address the driver reads at the end of a run (R156). -/
def resultAddr : Nat := 32

/-- The entry point: the value of `pc` at reset (R23, R31, the spec's decision D7; UNVERIFIED, notes/assumptions/4.md). -/
def entryPoint : Addr := 0

/-- What a memory word nothing has written reads as (R23, R33). -/
def unlistedWord : Word := 0

end Sys2Proof.Config
end

