-- ==== Sys2Proof/Syntax.lean ====
section
/-! DEFINITION. The instruction set: one constructor per row of `spec/opcode_table.json`, in the table's
order (`30_encoding.md` rule R58). An invalid word is no instruction of the table; the decoder reports it
beside these (`Decode.lean`). The operand types admit exactly the values the fields can hold, so every term
is encodable and names registers that exist (R10, R57; DESIGN CHOICE, notes/assumptions/19.md). -/

namespace Sys2Proof

/-- The ten instructions of the TRM-simple instruction set. `rt` is the destination and, for the
arithmetic four, the left operand; `rs` is the source (R100). `addr` is absolute (R57). -/
inductive Instr where
  /-- `mov rt,rs` (R101) -/
  | mov (rt rs : RegIndex)
  /-- `add rt,rs` (R102) -/
  | add (rt rs : RegIndex)
  /-- `sub rt,rs` (R103) -/
  | sub (rt rs : RegIndex)
  /-- `mul rt,rs` (R104) -/
  | mul (rt rs : RegIndex)
  /-- `div rt,rs` (R105) -/
  | div (rt rs : RegIndex)
  /-- `load addr` (R111) -/
  | load (addr : Addr)
  /-- `store addr` (R112) -/
  | store (addr : Addr)
  /-- `jnz addr` (R116) -/
  | jnz (addr : Addr)
  /-- `j addr` (R117) -/
  | j (addr : Addr)
  /-- `ret` (R120) -/
  | ret
  deriving DecidableEq, Repr

end Sys2Proof
end

