-- ==== Sys2Proof/WellFormed.lean ====
section
/-! DEFINITION. The checks on what the machine is given. An instruction term needs none to be encodable:
its operand types already hold exactly the field values (DESIGN CHOICE, notes/assumptions/19.md). What can be ill formed is
the parameter `MEM_WORDS` (R5), the launch image (R153, V6), and an instruction's address against a memory
size (a static check; such a word still decodes and runs, and faults when it executes, R35, R53). -/

namespace Sys2Proof

/-- `1 <= MEM_WORDS <= 256` (R5). -/
def memWordsOk (n : Nat) : Bool := decide (1 ≤ n) && decide (n ≤ Config.maxMemWords)

/-- A launch image: one word for each of `MEM_WORDS` cells, for a legal `MEM_WORDS` (R153, V6). -/
def imageOk (memWords : Nat) (image : List Word) : Bool :=
  memWordsOk memWords && image.length == memWords

/-- The data address an instruction names, if it is of the memory form (R53, R110). -/
def Instr.dataAddress? : Instr → Option Addr
  | .mov _ _ => none
  | .add _ _ => none
  | .sub _ _ => none
  | .mul _ _ => none
  | .div _ _ => none
  | .load addr => some addr
  | .store addr => some addr
  | .jnz _ => none
  | .j _ => none
  | .ret => none

/-- The instruction names no memory cell that does not exist (R31, R35). -/
def Instr.dataAddressOk (memWords : Nat) (i : Instr) : Bool :=
  match i.dataAddress? with
  | none => true
  | some addr => decide (addr.toNat < memWords)

end Sys2Proof
end

