-- ==== Sys2Proof/Decode.lean ====
section
/-! DEFINITION. The block `instruction_decoder` as a pure, total function on words (`30_encoding.md` rules
R51 to R59, R75), then the encoder (R61), then the opcode table as data (R58). -/

namespace Sys2Proof

/-- `w[lo+len-1 : lo]` (R6). -/
def slice (w : Word) (lo len : Nat) : BitVec len := w.extractLsb' lo len

/-- The opcode field `w[15:8]` (R51). -/
def opcodeOf (w : Word) : Opcode := slice w 8 8

/-- The field `rt = w[7:4]` of the register form (R52). -/
def rtOf (w : Word) : RegIndex := (slice w 4 4).toFin

/-- The field `rs = w[3:0]` of the register form (R52). -/
def rsOf (w : Word) : RegIndex := (slice w 0 4).toFin

/-- The field `addr = w[7:0]` of the memory and jump forms (R53, R54). -/
def addrOf (w : Word) : Addr := slice w 0 8

/-- What decoding a word yields: an instruction of the table, or Invalid with the opcode it names (R56).
The spec's eleven variants are the ten instructions and `invalid`. -/
inductive Decoded where
  | instr (i : Instr)
  | invalid (op : Opcode)
  deriving DecidableEq, Repr

/-- The decoder (R56). The opcode alone selects the row (R51); the low 8 bits of a `ret` or of an invalid
word are ignored (R55, R59, D14; UNVERIFIED, notes/assumptions/9.md). -/
def decode (w : Word) : Decoded :=
  match (opcodeOf w).toNat with
  | 0x00 => .instr (.mov (rtOf w) (rsOf w))
  | 0x01 => .instr (.add (rtOf w) (rsOf w))
  | 0x02 => .instr (.sub (rtOf w) (rsOf w))
  | 0x03 => .instr (.mul (rtOf w) (rsOf w))
  | 0x04 => .instr (.div (rtOf w) (rsOf w))
  | 0x05 => .instr (.load (addrOf w))
  | 0x06 => .instr (.store (addrOf w))
  | 0x07 => .instr (.jnz (addrOf w))
  | 0x08 => .instr (.j (addrOf w))
  | 0x09 => .instr .ret
  | _ => .invalid (opcodeOf w)

/-- The word of an opcode-table row: bits above the row's `nbits` are 0, and an instruction is one word
(R50; DESIGN CHOICE, notes/assumptions/15.md). -/
def tableWord (nbits w : Nat) : Word := BitVec.ofNat 16 (w % 2 ^ nbits)

/-- The instruction the decoder reads from a word of the opcode table, none where it answers Invalid. -/
def decodeTableWord (nbits w : Nat) : Option Instr :=
  match decode (tableWord nbits w) with
  | .instr i => some i
  | .invalid _ => none

/-- A register-form word: `opcode ++ rt ++ rs` (R52). -/
def encodeR (op : Opcode) (rt rs : RegIndex) : Word := op ++ (BitVec.ofFin rt : BitVec 4) ++ (BitVec.ofFin rs : BitVec 4)

/-- A memory-form or jump-form word: `opcode ++ addr` (R53, R54). -/
def encodeA (op : Opcode) (addr : Addr) : Word := op ++ addr

/-- The opcode of an instruction (R58). -/
def Instr.opcode : Instr → Opcode
  | .mov _ _ => 0x00
  | .add _ _ => 0x01
  | .sub _ _ => 0x02
  | .mul _ _ => 0x03
  | .div _ _ => 0x04
  | .load _ => 0x05
  | .store _ => 0x06
  | .jnz _ => 0x07
  | .j _ => 0x08
  | .ret => 0x09

/-- The encoder (R61). A `ret` is encoded with zero low bits, its canonical word (R55, D14). -/
def encode : Instr → Word
  | .mov rt rs => encodeR 0x00 rt rs
  | .add rt rs => encodeR 0x01 rt rs
  | .sub rt rs => encodeR 0x02 rt rs
  | .mul rt rs => encodeR 0x03 rt rs
  | .div rt rs => encodeR 0x04 rt rs
  | .load addr => encodeA 0x05 addr
  | .store addr => encodeA 0x06 addr
  | .jnz addr => encodeA 0x07 addr
  | .j addr => encodeA 0x08 addr
  | .ret => encodeA 0x09 0x00

/-- The four forms of an instruction word (R52 to R55). -/
inductive Form where
  /-- register form -/
  | r
  /-- memory form -/
  | m
  /-- jump form -/
  | j
  /-- no operand -/
  | e
  deriving DecidableEq, Repr

/-- The form of an instruction (R58). -/
def Instr.form : Instr → Form
  | .mov _ _ => .r
  | .add _ _ => .r
  | .sub _ _ => .r
  | .mul _ _ => .r
  | .div _ _ => .r
  | .load _ => .m
  | .store _ => .m
  | .jnz _ => .j
  | .j _ => .j
  | .ret => .e

/-- The mnemonic of an instruction (R58, R62). -/
def Instr.mnemonic : Instr → String
  | .mov _ _ => "mov"
  | .add _ _ => "add"
  | .sub _ _ => "sub"
  | .mul _ _ => "mul"
  | .div _ _ => "div"
  | .load _ => "load"
  | .store _ => "store"
  | .jnz _ => "jnz"
  | .j _ => "j"
  | .ret => "ret"

/-- One row of the opcode map: a word `w` is the row's instruction when `w and mask = pattern` (R58). -/
structure OpcodeRow where
  mnemonic : String
  form : Form
  pattern : Word
  mask : Word
  deriving DecidableEq, Repr

/-- The word matches the row (R58). -/
def OpcodeRow.covers (row : OpcodeRow) (w : Word) : Bool := w &&& row.mask == row.pattern

/-- The opcode map of R58, row by row: a copy of the spec's match and mask columns, independent of `decode`. -/
def opcodeMap : List OpcodeRow :=
  [ ⟨"mov", .r, 0x0000, 0xFF00⟩,
    ⟨"add", .r, 0x0100, 0xFF00⟩,
    ⟨"sub", .r, 0x0200, 0xFF00⟩,
    ⟨"mul", .r, 0x0300, 0xFF00⟩,
    ⟨"div", .r, 0x0400, 0xFF00⟩,
    ⟨"load", .m, 0x0500, 0xFF00⟩,
    ⟨"store", .m, 0x0600, 0xFF00⟩,
    ⟨"jnz", .j, 0x0700, 0xFF00⟩,
    ⟨"j", .j, 0x0800, 0xFF00⟩,
    ⟨"ret", .e, 0x0900, 0xFF00⟩ ]

end Sys2Proof
end

