-- ==== Sys2Proof/Machine/State.lean ====
section
/-! DEFINITION. The state of the machine, as `10_state.md` rule R24 gives it, and its value after reset
(R23, R150). All of it is plain data. -/

namespace Sys2Proof.Machine

/-- One listed word of memory: its word address and its value. The unit is the 16-bit word, the smallest
thing this hardware addresses (`20_memory.md` R30, R37; DESIGN CHOICE, notes/assumptions/13.md). -/
abbrev Cell := Nat × Word

/-- The memory array (`20_memory.md` R30): its size `MEM_WORDS` and the words that differ from what an
unlisted address reads as, addresses rising. `Memory.wf` in `Ops.lean` says the form. The size is the
parameter of `00_scope.md` R5; nothing in the machine changes it (DESIGN CHOICE, notes/assumptions/1.md). -/
structure Memory where
  size : Nat
  cells : List Cell
  deriving DecidableEq, Repr

/-- The three faults of `60_exceptions.md` rules R130 to R135, with the information recorded.
A faulting cycle RECORDS one of these in `State.fault` and answers `Outcome.next`: the spec describes the
state it leaves, and that the machine then stands still (R86, R133). `Outcome.fault` is never answered
(UNVERIFIED, notes/assumptions/2.md). -/
inductive Fault where
  /-- Raised by step 1 of any cycle when `pc >= MEM_WORDS` (R36, R134). Safe: no value is invented for the
  absent cell. -/
  | fetchAddressOutOfRange (pc : Addr)
  /-- Raised by `load` and `store` when `addr >= MEM_WORDS` (R35, R135). Safe: no value is invented and no
  write is dropped silently. -/
  | dataAddressOutOfRange (addr : Addr)
  /-- Raised by `div` when the divisor is 0 (R105, R132). Safe: no quotient is invented. -/
  | divisionByZero (pc : Addr)
  deriving DecidableEq, Repr

/-- Why the model would give an instruction no meaning. -/
inductive Refusal where
  /-- An arm of `exec` without a meaning. No arm uses it: every instruction of the table is modelled.
  Safe: a refusal proves nothing about the hardware. -/
  | notModelled (mnemonic : String)
  deriving DecidableEq, Repr

/-- The content of the diagnostic latch (`10_state.md` R18). -/
inductive Diagnostic where
  | invalidOpcode (op : Opcode)
  deriving DecidableEq, Repr

/-- The whole state of the CORE block (`10_state.md` R24). -/
structure State where
  /-- `register_file`: x[0] to x[15] (R10, R11). -/
  x : Vector Word 16
  /-- `memory_array` (R30). -/
  mem : Memory
  /-- `program_counter` (R13). -/
  pc : Addr
  /-- `executor_fsm`: the halt flag (R16). -/
  halt : Bool
  /-- `executor_fsm`: the fault status (R17). -/
  fault : Option Fault
  /-- `executor_fsm`: the diagnostic latch (R18). -/
  diag : Option Diagnostic
  /-- `executor_fsm`: the cycle counter, unbounded (R19; UNVERIFIED, notes/assumptions/10.md). -/
  cycles : Nat
  deriving DecidableEq, Repr

/-- Reset of a machine with `memWords` words of memory: every field at the value of R23 and R150. -/
def State.resetWith (memWords : Nat) : State where
  x := Vector.replicate 16 0
  mem := { size := memWords, cells := [] }
  pc := Config.entryPoint
  halt := false
  fault := none
  diag := none
  cycles := 0

/-- This hardware right after reset (R23, R150). -/
def State.reset : State := State.resetWith Config.memWords

end Sys2Proof.Machine
end

