-- ==== Sys2Proof/Machine/Ops.lean ====
section
/-! DEFINITION. The named operations of the blocks: `memory_array` (`40_cycle_and_blocks.md` R71),
`register_file` (R72), `program_counter` (R73), `fetch_unit` (R74), and the two ways `executor_fsm` ends a
cycle: completing it (R81, R82) and faulting it (R133). -/

namespace Sys2Proof.Machine

/-! ## memory_array -/

/-- The word listed at an address, or what an unlisted address reads as (R33). -/
def lookupCell : List Cell → Nat → Word
  | [], _ => Config.unlistedWord
  | c :: cs, a => if c.1 = a then c.2 else lookupCell cs a

/-- Drop every entry for an address. -/
def eraseCell : List Cell → Nat → List Cell
  | [], _ => []
  | c :: cs, a => if c.1 = a then eraseCell cs a else c :: eraseCell cs a

/-- Put an entry before the first one with a higher address. -/
def insertCell : List Cell → Nat → Word → List Cell
  | [], a, v => [(a, v)]
  | c :: cs, a, v => if a < c.1 then (a, v) :: c :: cs else c :: insertCell cs a v

/-- Replace the word at an address, keeping the canonical form: the value an unlisted address reads as is
not listed. -/
def putCell (cs : List Cell) (a : Nat) (v : Word) : List Cell :=
  if v = Config.unlistedWord then eraseCell cs a else insertCell (eraseCell cs a) a v

/-- Addresses strictly rise from `lo`, stay below `size`, and no entry holds the unlisted value. -/
def cellsOk (size : Nat) : Nat → List Cell → Bool
  | _, [] => true
  | lo, c :: cs =>
    decide (lo ≤ c.1) && decide (c.1 < size) && (c.2 != Config.unlistedWord) && cellsOk size (c.1 + 1) cs

/-- The canonical form of a memory, for a legal `MEM_WORDS` (R5, R30): equal contents are equal data. -/
def Memory.wf (m : Memory) : Bool := memWordsOk m.size && cellsOk m.size 0 m.cells

/-- `f_ok` and `d_ok` of R71: the address names a cell that exists. -/
def Memory.inRange (m : Memory) (a : Nat) : Bool := decide (a < m.size)

/-- `MemRead(a, 1)` (R33), none where no cell exists (R35, R36, R71). -/
def Memory.read? (m : Memory) (a : Nat) : Option Word :=
  if m.inRange a then some (lookupCell m.cells a) else none

/-- `MemWrite(a, 1, v)` (R34), none where no cell exists (R35, R71). -/
def Memory.write? (m : Memory) (a : Nat) (v : Word) : Option Memory :=
  if m.inRange a then some { m with cells := putCell m.cells a v } else none

/-- Replace the memory array and nothing else. -/
def State.setMem (s : State) (m : Memory) : State := { s with mem := m }

/-! ## register_file -/

/-- `x[i]` (R7, R10). -/
def State.reg (s : State) (i : RegIndex) : Word := s.x[i.val]'i.isLt

/-- `x[i] <- v` (R7, R11): no register discards a write. -/
def State.setReg (s : State) (i : RegIndex) (v : Word) : State := { s with x := s.x.set i.val v i.isLt }

/-! ## program_counter -/

/-- `(pc + 1) mod 256` (R15, D6; UNVERIFIED, notes/assumptions/6.md). -/
def incPc (pc : Addr) : Addr := BitVec.ofNat 8 ((pc.toNat + 1) % 256)

/-- The update at the end of a completed cycle (R73, R81): the target of a control transfer, exactly, or
the next address. `transfer` is the cycle-local flag `taken` together with its target (R80). -/
def nextPc (transfer : Option Addr) (pc : Addr) : Addr :=
  match transfer with
  | some target => target
  | none => incPc pc

/-! ## fetch_unit -/

/-- Step 1 of the cycle (R74, R77): the word at `pc`, none where no cell exists. -/
def State.fetch (s : State) : Option Word := s.mem.read? s.pc.toNat

/-! ## The end of a cycle -/

/-- Step 4 and completion (R81, R82): the program counter is updated and the cycle is counted. -/
def State.complete (s : State) (transfer : Option Addr) : State :=
  { s with pc := nextPc transfer s.pc, cycles := s.cycles + 1 }

/-- `raise f` (R7, R133): the faulting cycle records its fault and changes nothing else. This is the whole
of "taking an exception" on this hardware: there is no vector, no saved register and no mode (R138), and
there is no return from it (R139). -/
def State.raise (s : State) (f : Fault) : State := { s with fault := some f }

/-- A completed cycle that writes one register and is no control transfer (R100, R111). -/
def writeBack (s : State) (rd : RegIndex) (v : Word) : State := (s.setReg rd v).complete none

end Sys2Proof.Machine
end

