-- ==== Sys2Proof/Machine/Flags.lean ====
section
/-! DEFINITION. This hardware has no condition codes (`10_state.md` R20). What stands here is the status of
`executor_fsm`: its three conditions (R76), the halt flag, the diagnostic latch and the event codes (R130). -/

namespace Sys2Proof.Machine

/-- The three conditions of `executor_fsm` (R8, R76). -/
inductive Condition where
  | running
  | halted
  | faulted
  deriving DecidableEq, Repr

/-- A cycle may start: `halt = false` and `fault = None` (R76). -/
def State.running (s : State) : Bool := !s.halt && s.fault.isNone

/-- The condition as a function of the state (R76). In a state with both `halt` and a fault, which no run
reaches (R24), it says halted (DESIGN CHOICE, notes/assumptions/14.md). -/
def State.condition (s : State) : Condition :=
  if s.halt then .halted
  else match s.fault with
    | none => .running
    | some _ => .faulted

/-- `halt <- true` (R7, R16). -/
def State.setHalt (s : State) : State := { s with halt := true }

/-- `diag <- InvalidOpcode(op)` (R18). -/
def State.latchDiag (s : State) (op : Opcode) : State := { s with diag := some (.invalidOpcode op) }

/-- The code of a fault (R130, D11). -/
def Fault.code : Fault → Nat
  | .divisionByZero _ => 2
  | .fetchAddressOutOfRange _ => 3
  | .dataAddressOutOfRange _ => 4

/-- The code of the event that a state records (R130, D11). -/
def State.eventCode (s : State) : Nat :=
  match s.fault, s.diag with
  | some f, _ => f.code
  | none, some (.invalidOpcode _) => 1
  | none, none => 0

end Sys2Proof.Machine
end

