-- ==== Sys2Proof/Machine/Operands.lean ====
section
/-! DEFINITION. The operand forms (`30_encoding.md` R57): two register operands, the implicit register 0,
the absolute data address, the absolute jump target. There is no immediate. -/

namespace Sys2Proof.Machine

/-- Register 0, the implicit operand of `load`, `store` and `jnz` (`10_state.md` R11, R110, R116). -/
def accumulator : RegIndex := 0

/-- The left operand of the register form: the old value of the destination (R100). -/
def leftOperand (s : State) (rt : RegIndex) : Word := s.reg rt

/-- The right operand of the register form, `x[rs]` (R100). -/
def rightOperand (s : State) (rs : RegIndex) : Word := s.reg rs

/-- The word address of the memory form: the field itself, zero-extended (R57, R110). -/
def effectiveAddress (addr : Addr) : Nat := addr.toNat

/-- The target of the jump form: the field itself (R57, R115). -/
def jumpTarget (addr : Addr) : Addr := addr

/-- The control transfer of `jnz` (R80, R116): taken exactly when the whole of register 0 is not zero. -/
def jnzTransfer (s : State) (addr : Addr) : Option Addr :=
  if s.reg accumulator ≠ 0 then some (jumpTarget addr) else none

end Sys2Proof.Machine
end

