-- ==== Sys2Proof/Machine/HaltForm.lean ====
section
/-! DEFINITION. The halt instruction and the execution of an invalid word (`44_halt_form.md`). Both cycles
complete: `pc` advances (R81, D8; UNVERIFIED, notes/assumptions/7.md) and the cycle is counted (R82, D13). -/

namespace Sys2Proof.Machine

/-- `ret` (R120). -/
def execRet (s : State) : Host.Outcome State Fault Refusal :=
  .next (s.setHalt.complete none)

/-- An invalid word with opcode `op` (R121, R131): a clean halt with a diagnostic, not a fault. -/
def execInvalid (op : Opcode) (s : State) : Host.Outcome State Fault Refusal :=
  .next ((s.setHalt.latchDiag op).complete none)

/-- A cycle whose fetch has no cell to read (R36, R77, R134). -/
def fetchFault (s : State) : Host.Outcome State Fault Refusal :=
  .next (s.raise (.fetchAddressOutOfRange s.pc))

end Sys2Proof.Machine
end

