-- ==== Sys2Proof/Machine/JumpForm.lean ====
section
/-! DEFINITION. The two jump-form instructions (`43_jump_form.md`): the target is the field itself, it is
not checked when the jump executes, and nothing but `pc` changes (R115). -/

namespace Sys2Proof.Machine

/-- `jnz addr` (R116). -/
def execJnz (addr : Addr) (s : State) : Host.Outcome State Fault Refusal :=
  .next (s.complete (jnzTransfer s addr))

/-- `j addr` (R117). -/
def execJ (addr : Addr) (s : State) : Host.Outcome State Fault Refusal :=
  .next (s.complete (some (jumpTarget addr)))

end Sys2Proof.Machine
end

