-- ==== Sys2Proof/Machine/MemoryForm.lean ====
section
/-! DEFINITION. The two memory-form instructions (`42_memory_form.md`): one absolute word address, register
0 as the implicit register, a faulting cycle where no cell exists (R110). -/

namespace Sys2Proof.Machine

/-- `load addr` (R111). -/
def execLoad (addr : Addr) (s : State) : Host.Outcome State Fault Refusal :=
  match s.mem.read? (effectiveAddress addr) with
  | some w => .next (writeBack s accumulator w)
  | none => .next (s.raise (.dataAddressOutOfRange addr))

/-- `store addr` (R112). -/
def execStore (addr : Addr) (s : State) : Host.Outcome State Fault Refusal :=
  match s.mem.write? (effectiveAddress addr) (s.reg accumulator) with
  | some m => .next ((s.setMem m).complete none)
  | none => .next (s.raise (.dataAddressOutOfRange addr))

end Sys2Proof.Machine
end

