-- ==== Sys2Proof/Machine/Arith.lean ====
section
/-! DEFINITION. The integer arithmetic laws of `41_register_form.md` rule R106: exact on unsigned integers,
then reduced modulo 65536 (the spec's decision D5; UNVERIFIED, notes/assumptions/5.md). Nothing is signed. -/

namespace Sys2Proof.Machine

/-- `(a + b) mod 65536` (R102): a carry is lost. -/
def addWord (a b : Word) : Word := BitVec.ofNat 16 ((a.toNat + b.toNat) % 65536)

/-- `(a - b) mod 65536`, the non-negative residue (R103): a borrow is lost. -/
def subWord (a b : Word) : Word := BitVec.ofInt 16 (((a.toNat : Int) - (b.toNat : Int)) % 65536)

/-- `(a * b) mod 65536` (R104): the high half is lost. -/
def mulWord (a b : Word) : Word := BitVec.ofNat 16 ((a.toNat * b.toNat) % 65536)

/-- The floor quotient `a div b` (R105). No quotient where the divisor is 0 (R132). -/
def divWord (a b : Word) : Option Word :=
  if b = 0 then none else some (BitVec.ofNat 16 (a.toNat / b.toNat))

end Sys2Proof.Machine
end

