-- ==== Sys2Proof/Machine/RegisterForm.lean ====
section
/-! DEFINITION. The five register-form instructions (`41_register_form.md`). Both operands are read from
the state at the start of the cycle (R79); one register is written; none is a control transfer (R100). -/

namespace Sys2Proof.Machine

/-- `mov rt,rs` (R101). -/
def execMov (rt rs : RegIndex) (s : State) : Host.Outcome State Fault Refusal :=
  .next (writeBack s rt (rightOperand s rs))

/-- `add rt,rs` (R102). -/
def execAdd (rt rs : RegIndex) (s : State) : Host.Outcome State Fault Refusal :=
  .next (writeBack s rt (addWord (leftOperand s rt) (rightOperand s rs)))

/-- `sub rt,rs` (R103). -/
def execSub (rt rs : RegIndex) (s : State) : Host.Outcome State Fault Refusal :=
  .next (writeBack s rt (subWord (leftOperand s rt) (rightOperand s rs)))

/-- `mul rt,rs` (R104). -/
def execMul (rt rs : RegIndex) (s : State) : Host.Outcome State Fault Refusal :=
  .next (writeBack s rt (mulWord (leftOperand s rt) (rightOperand s rs)))

/-- `div rt,rs` (R105): a zero divisor makes the cycle a faulting one, whatever the dividend (R132). -/
def execDiv (rt rs : RegIndex) (s : State) : Host.Outcome State Fault Refusal :=
  match divWord (leftOperand s rt) (rightOperand s rs) with
  | some q => .next (writeBack s rt q)
  | none => .next (s.raise (.divisionByZero s.pc))

end Sys2Proof.Machine
end

