-- ==== Sys2Proof/Machine/Dispatch.lean ====
section
/-! DEFINITION. Step 3 of the cycle for a decoded instruction, and with it the cycle's end (R79 to R82): one
arm per constructor, one direct call of its meaning. -/

namespace Sys2Proof.Machine

-- The cycle of one instruction of the table, from its decoding on.
def exec (i : Instr) (s : State) : Host.Outcome State Fault Refusal :=
  match i with
  | .mov rt rs => Sys2Proof.Machine.execMov rt rs s
  | .add rt rs => Sys2Proof.Machine.execAdd rt rs s
  | .sub rt rs => Sys2Proof.Machine.execSub rt rs s
  | .mul rt rs => Sys2Proof.Machine.execMul rt rs s
  | .div rt rs => Sys2Proof.Machine.execDiv rt rs s
  | .load addr => Sys2Proof.Machine.execLoad addr s
  | .store addr => Sys2Proof.Machine.execStore addr s
  | .jnz addr => Sys2Proof.Machine.execJnz addr s
  | .j addr => Sys2Proof.Machine.execJ addr s
  | .ret => Sys2Proof.Machine.execRet s

end Sys2Proof.Machine
end

