-- ==== Sys2Proof/Machine/Step.lean ====
section
/-! DEFINITION. One step of the machine (`40_cycle_and_blocks.md` R83, R86): fetch, decode, execute, update,
as one indivisible transition (R84). -/

namespace Sys2Proof.Machine

/-- One application of the step. A Running machine performs one cycle; a Halted or Faulted one stands still
(R86, D9; UNVERIFIED, notes/assumptions/8.md). Every outcome is a next state. -/
def step (s : State) : Host.Outcome State Fault Refusal :=
  if s.running then
    match s.fetch with
    | none => fetchFault s
    | some iw =>
      match decode iw with
      | .instr i => exec i s
      | .invalid op => execInvalid op s
  else .next s

/-- Where `withFetchWord` puts its word: at `pc`, or at the entry point when `pc` has no cell. -/
def State.fetchPlace (s : State) : Addr :=
  if s.mem.inRange s.pc.toNat then s.pc else Config.entryPoint

/-- The state in which the very next step fetches and runs the given word of the opcode table. For a Running
state whose `pc` has a cell it only stores the word there, as the loader would (R152). Otherwise it also
makes the machine Running, or moves `pc` to the entry point (DESIGN CHOICE, notes/assumptions/15.md). -/
def State.withFetchWord (s : State) (nbits w : Nat) : State :=
  { s with
    pc := s.fetchPlace
    mem := (s.mem.write? s.fetchPlace.toNat (tableWord nbits w)).getD s.mem
    halt := false
    fault := none
    diag := if s.running then s.diag else none }

end Sys2Proof.Machine
end

