-- ==== Sys2Proof/Machine/HostPort.lean ====
section
/-! DEFINITION. What the host may do and when (`70_reset_and_hazards.md` rules R155 and R156, D18;
UNVERIFIED, notes/assumptions/11.md): write a memory word before the first cycle, read memory and the status state after
the run has ended, nothing in between. It has no port to registers or `pc`. -/

namespace Sys2Proof.Machine

/-- No cycle has been performed: none is counted and none has faulted or halted (R155; DEDUCED,
notes/assumptions/11.md). -/
def State.beforeFirstCycle (s : State) : Bool := s.running && s.cycles == 0

/-- The host's word write (R71, R152, R155). -/
def State.hostWrite? (s : State) (a : Nat) (v : Word) : Option State :=
  if s.beforeFirstCycle then (s.mem.write? a v).map s.setMem else none

/-- The host's word read (R71, R156). -/
def State.hostRead? (s : State) (a : Nat) : Option Word :=
  if s.running then none else s.mem.read? a

/-- What the host observes at the end of a run beside the memory words (R156). -/
structure Report where
  cycles : Nat
  /-- the word at the result address, none where memory is too small to have it -/
  result : Option Word
  halt : Bool
  diag : Option Diagnostic
  fault : Option Fault
  deriving DecidableEq, Repr

/-- The report of a run that has ended (R85, R156). -/
def State.report? (s : State) : Option Report :=
  if s.running then none
  else some
    { cycles := s.cycles
      result := s.mem.read? Config.resultAddr
      halt := s.halt
      diag := s.diag
      fault := s.fault }

end Sys2Proof.Machine
end

