-- ==== Sys2Proof/Machine/Loader.lean ====
section
/-! DEFINITION. The loader's contract with the core (`70_reset_and_hazards.md` rules R152 and R153): what may
stand in memory before the first cycle. The loader is not a part of the core (R4), and its cursor is not
state of the core (R22): it has a type of its own here. -/

namespace Sys2Proof.Machine

/-- Write words at rising addresses from `base`; none where one falls outside memory (V6;
UNVERIFIED, notes/assumptions/17.md). -/
def Memory.fill? (m : Memory) (base : Nat) : List Word → Option Memory
  | [] => some m
  | w :: ws => (m.write? base w).bind fun m' => m'.fill? (base + 1) ws

/-- The loader while it sets a program up: the memory it writes and its data-region cursor (R152). -/
structure Loader where
  mem : Memory
  cursor : Nat
  deriving DecidableEq, Repr

/-- The loader before its first call: the cursor starts at 32 (R152). -/
def Loader.start (m : Memory) : Loader := { mem := m, cursor := Config.dataBase }

/-- `load_program(words)` (R152). -/
def Loader.loadProgram? (l : Loader) (words : List Word) : Option Loader :=
  (l.mem.fill? Config.codeBase words).map fun m => { l with mem := m }

/-- `push(v)` (R152): one word at the cursor, which advances by one. -/
def Loader.push? (l : Loader) (v : Word) : Option Loader :=
  (l.mem.write? l.cursor v).map fun m => { mem := m, cursor := l.cursor + 1 }

/-- The pushes of a list of initial values, in order. -/
def Loader.pushAll? (l : Loader) : List Word → Option Loader
  | [] => some l
  | v :: vs => (l.push? v).bind fun l' => l'.pushAll? vs

/-- The launch state of a run (R153): the reset state with memory replaced by an image of exactly
`MEM_WORDS` words. -/
def State.launch? (memWords : Nat) (image : List Word) : Option State :=
  if imageOk memWords image then
    ((State.resetWith memWords).mem.fill? 0 image).map (State.resetWith memWords).setMem
  else none

/-- A launch through the loader's calls (R152): the program from address 0, then the initial values pushed. -/
def State.loaded? (memWords : Nat) (program values : List Word) : Option State :=
  if memWordsOk memWords then
    (((Loader.start (State.resetWith memWords).mem).loadProgram? program).bind
      fun l => l.pushAll? values).map fun l => (State.resetWith memWords).setMem l.mem
  else none

end Sys2Proof.Machine
end

