-- ==== Sys2Proof/Safety.lean ====
section
/-! DEFINITION. What counts as a good or a bad end of a run (`40_cycle_and_blocks.md` R85, `60_exceptions.md`
R133), and the invariant of reachable states (`10_state.md` R24, R133). -/

namespace Sys2Proof.Machine

/-- The run has ended in the Halted condition: normally, for the hardware (R85). -/
def State.EndedHalted (s : State) : Prop := s.halt = true ∧ s.fault = none

/-- The run has ended by `ret`, not by an invalid opcode (R18, R85). -/
def State.EndedByRet (s : State) : Prop := s.EndedHalted ∧ s.diag = none

/-- The run has gone wrong (R85, R133): never a successful end. -/
def State.GoneWrong (s : State) : Prop := s.fault ≠ none

/-- A recorded fault says what happened at the instruction `pc` still addresses (R133): for a fetch fault
there is no word there; otherwise the word there is the faulting instruction and its operands still show
why it faulted. -/
def State.FaultExplained (s : State) : Prop :=
  match s.fault with
  | none => True
  | some (.fetchAddressOutOfRange p) => p = s.pc ∧ s.fetch = none
  | some (.dataAddressOutOfRange a) =>
    s.mem.read? a.toNat = none ∧
      ∃ w, s.fetch = some w ∧ (decode w = .instr (.load a) ∨ decode w = .instr (.store a))
  | some (.divisionByZero p) =>
    p = s.pc ∧ ∃ w rt rs, s.fetch = some w ∧ decode w = .instr (.div rt rs) ∧ s.reg rs = 0

/-- A halted machine stands one past the word that halted it, a `ret` exactly when there is no diagnostic
and otherwise an invalid word with the latched opcode (R18, R120, R121, D8; UNVERIFIED, notes/assumptions/7.md). -/
def State.HaltExplained (s : State) : Prop :=
  s.halt = true →
    ∃ w, s.mem.read? (s.pc - 1).toNat = some w ∧
      match s.diag with
      | none => decode w = .instr .ret
      | some (.invalidOpcode op) => decode w = .invalid op

/-- The invariant that every step keeps: memory is canonical (DESIGN CHOICE, notes/assumptions/13.md) and of
a legal size (R5), `halt` and a fault are
never both set, a diagnostic implies `halt` (R24), and faults and halts are explained by what stands in
memory and registers. -/
structure State.Inv (s : State) : Prop where
  mem_wf : s.mem.wf = true
  not_both : ¬ (s.halt = true ∧ s.fault ≠ none)
  diag_halts : s.diag ≠ none → s.halt = true
  fault_explained : s.FaultExplained
  halt_explained : s.HaltExplained

end Sys2Proof.Machine
end

