-- ==== Sys2Proof/Certificates/Slice0/Obligations.lean ====
section
/-! DEFINITION. The statements for the provers, and the words they are written in. A statement whose
docstring names a decision D<n> of `spec/92_eei_decisions.md` rests on a choice that the spec marks as its
own; one that names `notes/assumptions/<n>.md` rests on a choice of this model. -/

namespace Sys2Proof.Statements

open Sys2Proof.Machine

/-! ## Words for frames -/

/-- Every word of memory reads as before, and no address came into being or vanished. -/
def SameMemory (s t : State) : Prop := ∀ a : Nat, t.mem.read? a = s.mem.read? a

/-- Every register reads as before. -/
def SameRegisters (s t : State) : Prop := ∀ r, t.reg r = s.reg r

/-- Every register but one reads as before. -/
def SameRegistersBut (rd : RegIndex) (s t : State) : Prop := ∀ r, r ≠ rd → t.reg r = s.reg r

/-- The halt flag, the fault status and the diagnostic latch are as before. -/
def SameStatus (s t : State) : Prop := t.halt = s.halt ∧ t.fault = s.fault ∧ t.diag = s.diag

/-- `pc <- (pc + 1) mod 256`. -/
def Advanced (s t : State) : Prop := t.pc.toNat = (s.pc.toNat + 1) % 256

/-- `cycles <- cycles + 1`. -/
def Counted (s t : State) : Prop := t.cycles = s.cycles + 1

/-- A completed cycle that writes register `rd` and nothing else but `pc` and `cycles`. -/
def WritesOnlyRegister (rd : RegIndex) (s t : State) : Prop :=
  SameRegistersBut rd s t ∧ SameMemory s t ∧ SameStatus s t ∧ Advanced s t ∧ Counted s t

/-- A faulting cycle: the fault is recorded and every other field is as before (R133). -/
def OnlyFaults (f : Fault) (s t : State) : Prop := t = { s with fault := some f }

/-! ## R12 as a table -/

/-- The registers an instruction reads (R12). -/
def readsOf : Instr → List RegIndex
  | .mov _ rs => [rs]
  | .add rt rs => [rt, rs]
  | .sub rt rs => [rt, rs]
  | .mul rt rs => [rt, rs]
  | .div rt rs => [rt, rs]
  | .load _ => []
  | .store _ => [0]
  | .jnz _ => [0]
  | .j _ => []
  | .ret => []

/-- The register an instruction writes (R12). -/
def writesOf : Instr → Option RegIndex
  | .mov rt _ => some rt
  | .add rt _ => some rt
  | .sub rt _ => some rt
  | .mul rt _ => some rt
  | .div rt _ => some rt
  | .load _ => some 0
  | .store _ => none
  | .jnz _ => none
  | .j _ => none
  | .ret => none

/-! ## R130 and R136: the cause of a fault, in order of detection -/

/-- The fault a cycle that starts in `s` raises, if any. -/
def causedFault (s : State) : Option Fault :=
  match s.fetch with
  | none => some (.fetchAddressOutOfRange s.pc)
  | some w =>
    match decode w with
    | .instr (.div _ rs) => if s.reg rs = 0 then some (.divisionByZero s.pc) else none
    | .instr (.load a) => if s.mem.size ≤ a.toNat then some (.dataAddressOutOfRange a) else none
    | .instr (.store a) => if s.mem.size ≤ a.toNat then some (.dataAddressOutOfRange a) else none
    | _ => none

/-! ## R33: the history of a memory -/

/-- A list of writes, the oldest first. -/
def applyWrites (m : Memory) : List (Nat × Word) → Option Memory
  | [] => some m
  | p :: ps => (m.write? p.1 p.2).bind fun m' => applyWrites m' ps

/-- The value most recently written to an address, or `v` where none was. -/
def lastWritten (a : Nat) (v : Word) : List (Nat × Word) → Word
  | [] => v
  | p :: ps => lastWritten a (if p.1 = a then p.2 else v) ps

/-! ## R24 and R83: the spec's machine on natural numbers

The aggregate of R24 and the step function of R83 transcribed with natural numbers and functions, sharing
nothing with the model's words, memory lists, decoder or operations. -/

inductive SpecFault where
  | fetchAddressOutOfRange (pc : Nat)
  | dataAddressOutOfRange (addr : Nat)
  | divisionByZero (pc : Nat)

structure SpecState where
  memWords : Nat
  x : Nat → Nat
  mem : Nat → Nat
  pc : Nat
  halt : Bool
  fault : Option SpecFault
  diag : Option Nat
  cycles : Nat

/-- `f` with the value at `k` replaced. -/
def replaceAt (f : Nat → Nat) (k v : Nat) : Nat → Nat := fun n => if n = k then v else f n

/-- Step 4 and the count of a completed cycle that is no control transfer. -/
def SpecState.advance (s : SpecState) : SpecState :=
  { s with pc := (s.pc + 1) % 256, cycles := s.cycles + 1 }

/-- R83, and R86 where no cycle runs. -/
def specStep (s : SpecState) : SpecState :=
  if s.halt = true ∨ s.fault.isSome = true then s
  else if s.memWords ≤ s.pc then { s with fault := some (.fetchAddressOutOfRange s.pc) }
  else
    let iw := s.mem s.pc
    let op := iw / 256
    let rt := iw / 16 % 16
    let rs := iw % 16
    let addr := iw % 256
    if op = 0 then { s with x := replaceAt s.x rt (s.x rs) }.advance
    else if op = 1 then { s with x := replaceAt s.x rt ((s.x rt + s.x rs) % 65536) }.advance
    else if op = 2 then
      { s with x := replaceAt s.x rt (((s.x rt : Int) - (s.x rs : Int)) % 65536).toNat }.advance
    else if op = 3 then { s with x := replaceAt s.x rt ((s.x rt * s.x rs) % 65536) }.advance
    else if op = 4 then
      if s.x rs = 0 then { s with fault := some (.divisionByZero s.pc) }
      else { s with x := replaceAt s.x rt (s.x rt / s.x rs) }.advance
    else if op = 5 then
      if s.memWords ≤ addr then { s with fault := some (.dataAddressOutOfRange addr) }
      else { s with x := replaceAt s.x 0 (s.mem addr) }.advance
    else if op = 6 then
      if s.memWords ≤ addr then { s with fault := some (.dataAddressOutOfRange addr) }
      else { s with mem := replaceAt s.mem addr (s.x 0) }.advance
    else if op = 7 then
      if s.x 0 ≠ 0 then { s with pc := addr, cycles := s.cycles + 1 } else s.advance
    else if op = 8 then { s with pc := addr, cycles := s.cycles + 1 }
    else if op = 9 then { s with halt := true }.advance
    else { s with halt := true, diag := some op }.advance

/-- A fault of the model as the spec's. -/
def specFault : Fault → SpecFault
  | .fetchAddressOutOfRange pc => .fetchAddressOutOfRange pc.toNat
  | .dataAddressOutOfRange addr => .dataAddressOutOfRange addr.toNat
  | .divisionByZero pc => .divisionByZero pc.toNat

/-- A state of the model as the spec's aggregate: what each register and each word reads as. -/
def specState (s : State) : SpecState where
  memWords := s.mem.size
  x r := if h : r < 16 then (s.reg ⟨r, h⟩).toNat else 0
  mem a := match s.mem.read? a with
    | some w => w.toNat
    | none => 0
  pc := s.pc.toNat
  halt := s.halt
  fault := s.fault.map specFault
  diag := s.diag.map fun
    | .invalidOpcode op => op.toNat
  cycles := s.cycles

end Sys2Proof.Statements

open Sys2Proof Sys2Proof.Machine Sys2Proof.Statements

/-! ## Encoding -/

/-- The decoder table of `95_test_vectors.md` 2.1: words of every family, the two highest register indices,
both ends of the invalid range, and ignored low bits (D14). -/
def Obligations.SpecDecoderVectors : Prop :=
  decode 0x0000 = .instr (.mov 0 0) ∧ decode 0x0010 = .instr (.mov 1 0) ∧ decode 0x0001 = .instr (.mov 0 1) ∧
  decode 0x00FF = .instr (.mov 15 15) ∧ decode 0x0101 = .instr (.add 0 1) ∧ decode 0x0210 = .instr (.sub 1 0) ∧
  decode 0x0311 = .instr (.mul 1 1) ∧ decode 0x04F0 = .instr (.div 15 0) ∧ decode 0x0520 = .instr (.load 32) ∧
  decode 0x05FF = .instr (.load 255) ∧ decode 0x0620 = .instr (.store 32) ∧ decode 0x0702 = .instr (.jnz 2) ∧
  decode 0x080F = .instr (.j 15) ∧ decode 0x0900 = .instr .ret ∧ decode 0x09FF = .instr .ret ∧
  decode 0x0A00 = .invalid 0x0A ∧ decode 0x0F37 = .invalid 0x0F ∧ decode 0xFFFF = .invalid 0xFF

/-- R61: decoding an encoded instruction gives it back, whatever its operands; encoding a decoded word gives
the word back for opcodes 0x00 to 0x08, and `0x0900` for opcode 0x09. `encode` is not defined on Invalid: it
takes an instruction. -/
def Obligations.DecodeEncodeRoundTrip : Prop :=
  (∀ i : Instr, decode (encode i) = .instr i) ∧
  (∀ (w : Word) (i : Instr), decode w = .instr i →
    (w.toNat / 256 ≤ 8 → encode i = w) ∧ (w.toNat / 256 = 9 → encode i = 0x0900)) ∧
  (∀ w : Word, w.toNat / 256 ≤ 9 → ∃ i, decode w = .instr i)

/-- R56: `decode` on every word, by the opcode `w[15:8]` alone, with `rt = w[7:4]`, `rs = w[3:0]`,
`addr = w[7:0]` read as numbers. -/
def Obligations.DecoderFollowsOpcodeAndFields : Prop :=
  ∀ w : Word,
    let op := w.toNat / 256
    let rt : RegIndex := Fin.ofNat 16 (w.toNat / 16)
    let rs : RegIndex := Fin.ofNat 16 w.toNat
    let addr : Addr := BitVec.ofNat 8 w.toNat
    (op = 0x00 → decode w = .instr (.mov rt rs)) ∧ (op = 0x01 → decode w = .instr (.add rt rs)) ∧
    (op = 0x02 → decode w = .instr (.sub rt rs)) ∧ (op = 0x03 → decode w = .instr (.mul rt rs)) ∧
    (op = 0x04 → decode w = .instr (.div rt rs)) ∧ (op = 0x05 → decode w = .instr (.load addr)) ∧
    (op = 0x06 → decode w = .instr (.store addr)) ∧ (op = 0x07 → decode w = .instr (.jnz addr)) ∧
    (op = 0x08 → decode w = .instr (.j addr)) ∧ (op = 0x09 → decode w = .instr .ret) ∧
    (0x0A ≤ op → decode w = .invalid (BitVec.ofNat 8 op))

/-- The opcode map of R58 against the decoder: a decoded word is covered by exactly one row, the one with
the instruction's mnemonic and form; an Invalid word is covered by none, names its own opcode, and that
opcode is at least 0x0A. -/
def Obligations.OpcodeMapIsUnambiguous : Prop :=
  (∀ (w : Word) (i : Instr), decode w = .instr i →
    ∃ row ∈ opcodeMap, row.covers w = true ∧ row.mnemonic = i.mnemonic ∧ row.form = i.form ∧
      ∀ other ∈ opcodeMap, other.covers w = true → other = row) ∧
  (∀ (w : Word) (op : Opcode), decode w = .invalid op →
    op.toNat = w.toNat / 256 ∧ 0x0A ≤ op.toNat ∧ ∀ row ∈ opcodeMap, row.covers w = false)

/-! ## Register form -/

/-- R101: `mov` copies the whole of `x[rs]` into `x[rt]`, for every pair of registers, equal or not. Its
word is `0x00 ++ rt ++ rs`. It raises nothing. The cycle is counted as R82 says. -/
def Obligations.MovCopiesRegister : Prop :=
  ∀ (rt rs : RegIndex) (s : State),
    (encode (.mov rt rs)).toNat = rt.val * 16 + rs.val ∧
    ∃ t, exec (.mov rt rs) s = .next t ∧ t.reg rt = s.reg rs ∧ WritesOnlyRegister rt s t

/-- R102: `add`. The reduction modulo 65536 is the spec's decision D5 (`notes/assumptions/5.md`). With
`rt = rs` both operands are the old value. -/
def Obligations.AddIsSumModuloWord : Prop :=
  ∀ (rt rs : RegIndex) (s : State), ∃ t, exec (.add rt rs) s = .next t ∧
    (t.reg rt).toNat = ((s.reg rt).toNat + (s.reg rs).toNat) % 65536 ∧ WritesOnlyRegister rt s t

/-- R103: `sub`, destination minus source, the non-negative residue modulo 65536 (D5,
`notes/assumptions/5.md`). -/
def Obligations.SubIsDifferenceModuloWord : Prop :=
  ∀ (rt rs : RegIndex) (s : State), ∃ t, exec (.sub rt rs) s = .next t ∧
    ((t.reg rt).toNat : Int) = (((s.reg rt).toNat : Int) - ((s.reg rs).toNat : Int)) % 65536 ∧
    WritesOnlyRegister rt s t

/-- R104: `mul`, the low 16 bits of the unsigned product (D5, `notes/assumptions/5.md`). -/
def Obligations.MulIsProductModuloWord : Prop :=
  ∀ (rt rs : RegIndex) (s : State), ∃ t, exec (.mul rt rs) s = .next t ∧
    (t.reg rt).toNat = ((s.reg rt).toNat * (s.reg rs).toNat) % 65536 ∧ WritesOnlyRegister rt s t

/-- R105, non-zero divisor: the quotient is the largest `q` with `q * x[rs] <= x[rt]`. -/
def Obligations.DivIsFloorQuotient : Prop :=
  ∀ (rt rs : RegIndex) (s : State), s.reg rs ≠ 0 → ∃ t, exec (.div rt rs) s = .next t ∧
    (t.reg rt).toNat * (s.reg rs).toNat ≤ (s.reg rt).toNat ∧
    (∀ q : Nat, q * (s.reg rs).toNat ≤ (s.reg rt).toNat → q ≤ (t.reg rt).toNat) ∧
    WritesOnlyRegister rt s t

/-- R105 and R132, zero divisor: a faulting cycle for every dividend, 0 included, also with `rt = rs`. That
it faults and what the faulting cycle leaves are the spec's decisions D4 and D10 (`notes/assumptions/3.md`,
`notes/assumptions/2.md`). -/
def Obligations.DivisionByZeroFaults : Prop :=
  ∀ (rt rs : RegIndex) (s : State), s.reg rs = 0 → ∃ t, exec (.div rt rs) s = .next t ∧
    OnlyFaults (.divisionByZero s.pc) s t

/-! ## Memory form -/

/-- R111: `load` of a cell that exists puts its word into register 0 and leaves memory as it is. -/
def Obligations.LoadReadsMemoryIntoRegisterZero : Prop :=
  ∀ (addr : Addr) (s : State), addr.toNat < s.mem.size → ∃ t, exec (.load addr) s = .next t ∧
    s.mem.read? (effectiveAddress addr) = some (t.reg 0) ∧ WritesOnlyRegister 0 s t

/-- R112: `store` to a cell that exists puts register 0 into that cell; every other word, every register and
the status are as before. -/
def Obligations.StoreWritesRegisterZeroToMemory : Prop :=
  ∀ (addr : Addr) (s : State), addr.toNat < s.mem.size → ∃ t, exec (.store addr) s = .next t ∧
    t.mem.read? (effectiveAddress addr) = some (s.reg 0) ∧
    (∀ a : Nat, a ≠ effectiveAddress addr → t.mem.read? a = s.mem.read? a) ∧
    SameRegisters s t ∧ SameStatus s t ∧ Advanced s t ∧ Counted s t

/-- R35, R110, R135: a `load` or `store` at or beyond `MEM_WORDS` is a faulting cycle (D2, D10;
`notes/assumptions/3.md`, `notes/assumptions/2.md`). -/
def Obligations.DataAddressBeyondMemoryFaults : Prop :=
  ∀ (addr : Addr) (s : State), s.mem.size ≤ addr.toNat →
    (∃ t, exec (.load addr) s = .next t ∧ OnlyFaults (.dataAddressOutOfRange addr) s t) ∧
    (∃ t, exec (.store addr) s = .next t ∧ OnlyFaults (.dataAddressOutOfRange addr) s t)

/-- R34 on the memory array: a write in range replaces the whole cell and changes no other and not the
size; out of range there is no write. -/
def Obligations.MemoryWriteReplacesOneCell : Prop :=
  ∀ (m : Memory) (a : Nat) (v : Word),
    (a < m.size → ∃ m', m.write? a v = some m' ∧ m'.read? a = some v ∧ m'.size = m.size ∧
      ∀ b : Nat, b ≠ a → m'.read? b = m.read? b) ∧
    (m.size ≤ a → m.write? a v = none)

/-- R33 on the memory array, from its reset contents through any writes (the loader's or a `store`'s): a
read returns the value most recently written to the cell, or 0; where no cell exists there is no value; a
`load` leaves memory as it is. -/
def Obligations.MemoryReadReturnsLatestWrite : Prop :=
  (∀ (n : Nat) (writes : List (Nat × Word)) (m : Memory) (a : Nat),
    applyWrites (State.resetWith n).mem writes = some m →
      (a < n → m.read? a = some (lastWritten a 0 writes)) ∧ (n ≤ a → m.read? a = none)) ∧
  (∀ (n : Nat) (writes : List (Nat × Word)), (∀ p ∈ writes, p.1 < n) →
    ∃ m, applyWrites (State.resetWith n).mem writes = some m) ∧
  (∀ (addr : Addr) (s t : State), exec (.load addr) s = .next t → t.mem = s.mem)

/-- The canonical form says nothing but the contents: two canonical memories that read the same at every
address are the same data (`notes/assumptions/13.md`). -/
def Obligations.CanonicalMemoriesWithEqualReadsAreEqual : Prop :=
  ∀ m m' : Memory, m.wf = true → m'.wf = true → (∀ a : Nat, m.read? a = m'.read? a) → m = m'

/-- R43: a store is seen by the next fetch. The cycle after `store` to the next address runs the stored
word, whether it decodes to an instruction or to Invalid; a `store` to any other address leaves the next fetch alone; a `store` to its own address does not
change the cycle in progress, which goes on to `pc + 1`. R43 is the spec's own derivation. -/
def Obligations.StoreIsSeenByTheNextFetch : Prop :=
  ∀ (s t : State) (w : Word) (addr : Addr), s.running = true → s.fetch = some w →
    decode w = .instr (.store addr) → addr.toNat < s.mem.size → step s = .next t →
      t.running = true ∧ Advanced s t ∧ t.mem.read? addr.toNat = some (s.reg 0) ∧
      (addr = t.pc → t.fetch = some (s.reg 0) ∧
        (∀ i, decode (s.reg 0) = .instr i → step t = exec i t) ∧
        (∀ op, decode (s.reg 0) = .invalid op → step t = execInvalid op t)) ∧
      (addr ≠ t.pc → t.fetch = s.mem.read? t.pc.toNat)

/-! ## Jump form -/

/-- R116: `jnz`. Its word is `0x07 ++ addr`. Taken exactly when the whole of register 0 is not zero, to
exactly `addr`; one cycle whether taken or not; nothing else changes. -/
def Obligations.JnzBranchesOnRegisterZero : Prop :=
  ∀ (addr : Addr) (s : State),
    (encode (.jnz addr)).toNat = 0x0700 + addr.toNat ∧
    ∃ t, exec (.jnz addr) s = .next t ∧
      (s.reg 0 ≠ 0 → t.pc = addr) ∧ (s.reg 0 = 0 → Advanced s t) ∧
      SameRegisters s t ∧ SameMemory s t ∧ SameStatus s t ∧ Counted s t

/-- R117: `j`. Its word is `0x08 ++ addr`. The new `pc` is exactly `addr`, in memory or beyond it; one
cycle; nothing else changes. -/
def Obligations.JumpSetsPcToTarget : Prop :=
  ∀ (addr : Addr) (s : State),
    (encode (.j addr)).toNat = 0x0800 + addr.toNat ∧
    ∃ t, exec (.j addr) s = .next t ∧ t.pc = addr ∧
      SameRegisters s t ∧ SameMemory s t ∧ SameStatus s t ∧ Counted s t

/-! ## Halting -/

/-- R120: `ret` sets the halt flag; `diag` and `fault` stay. That `pc` advances on the halting cycle is the
spec's decision D8 (`notes/assumptions/7.md`); that it is counted is D13. -/
def Obligations.RetSetsHaltAndAdvances : Prop :=
  ∀ s : State, ∃ t, exec .ret s = .next t ∧ t.halt = true ∧ t.fault = s.fault ∧ t.diag = s.diag ∧
    SameRegisters s t ∧ SameMemory s t ∧ Advanced s t ∧ Counted s t

/-- R121: the cycle that fetches a word with an opcode of 0x0A or more, whatever its low 8 bits, halts and
latches the opcode; no register, no memory word and no fault changes (D8, D12, D13, D14). -/
def Obligations.InvalidWordHaltsWithDiagnostic : Prop :=
  ∀ (s : State) (w : Word), s.running = true → s.fetch = some w → 0x0A ≤ w.toNat / 256 →
    ∃ t, step s = .next t ∧ t.halt = true ∧
      t.diag = some (.invalidOpcode (BitVec.ofNat 8 (w.toNat / 256))) ∧ t.fault = s.fault ∧
      SameRegisters s t ∧ SameMemory s t ∧ Advanced s t ∧ Counted s t

/-- R16: the halt flag is false at reset; a step sets it exactly by `ret` or by an Invalid word; nothing
clears it; once it is true no further cycle runs; the host reads it and does not write it. -/
def Obligations.HaltIsSetByExactlyTwoEvents : Prop :=
  State.reset.halt = false ∧
  (∀ s t : State, step s = .next t →
    (t.halt = true ↔ s.halt = true ∨
      (s.running = true ∧ ∃ w, s.fetch = some w ∧
        (decode w = .instr .ret ∨ ∃ op, decode w = .invalid op)))) ∧
  (∀ s : State, s.halt = true → step s = .next s) ∧
  (∀ (s t : State) (a : Nat) (v : Word), s.hostWrite? a v = some t → t.halt = s.halt) ∧
  (∀ (s : State) (r : Report), s.report? = some r → r.halt = s.halt)

/-- R76: the three conditions. The machine starts Running; in a state that meets the invariant it is in
exactly one of them, by `halt` and `fault` alone; a cycle takes Running to Halted exactly by `ret` or an
Invalid word, and to Faulted exactly by a faulting cycle; a step leaves neither Halted nor Faulted. WHICH
cycles fault is not R76's: it is the event table of R130 and R136, with the spec's decisions D2, D3 and D4
(`notes/assumptions/3.md`); the fault status is D10 (`notes/assumptions/2.md`), and that an ended run stands
still D9 (`notes/assumptions/8.md`). -/
def Obligations.ConditionFollowsHaltAndFault : Prop :=
  State.reset.condition = .running ∧
  (∀ s : State, s.Inv →
    (s.condition = .running ↔ s.halt = false ∧ s.fault = none) ∧
    (s.condition = .halted ↔ s.halt = true) ∧ (s.condition = .faulted ↔ s.fault ≠ none)) ∧
  (∀ s t : State, step s = .next t → s.condition = .running →
    (t.condition = .halted ↔ ∃ w, s.fetch = some w ∧
      (decode w = .instr .ret ∨ ∃ op, decode w = .invalid op)) ∧
    (t.condition = .faulted ↔ (causedFault s).isSome = true)) ∧
  (∀ s t : State, step s = .next t → s.condition ≠ .running → t.condition = s.condition)

/-- R18, R85 (D12, `notes/assumptions/12.md`), and for the cycles that go wrong R130 and R136 with the spec's
decisions D2, D3, D4 and D10 (`notes/assumptions/3.md`, `notes/assumptions/2.md`): how a cycle ends the run. It ends by `ret` exactly when the
word at `pc` is a `ret`, with no diagnostic; it ends by an invalid opcode exactly when the word at `pc` is
Invalid, with that opcode latched; it has gone wrong exactly when the cycle faulted. -/
def Obligations.EndOfRunTellsItsCause : Prop :=
  ∀ s t : State, s.Inv → s.running = true → step s = .next t →
    (t.EndedByRet ↔ ∃ w, s.fetch = some w ∧ decode w = .instr .ret) ∧
    (∀ op, (t.EndedHalted ∧ t.diag = some (.invalidOpcode op)) ↔
      ∃ w, s.fetch = some w ∧ decode w = .invalid op) ∧
    (t.GoneWrong ↔ (causedFault s).isSome = true)

/-! ## The cycle -/

/-- R77 to R79: a cycle of a Running machine runs what the word at `pc` decodes to. Nothing is added around
`exec`: the meanings end the cycle themselves (`pc`, `cycles`). -/
def Obligations.StepRunsDecodedInstruction : Prop :=
  ∀ (s : State) (w : Word) (i : Instr), s.running = true → s.mem.read? s.pc.toNat = some w →
    decode w = .instr i → step s = exec i s

/-- R36, R77, R134: a cycle that starts with `pc` at or beyond `MEM_WORDS` is a faulting cycle (D3, D10;
`notes/assumptions/3.md`, `notes/assumptions/2.md`). -/
def Obligations.FetchBeyondMemoryFaults : Prop :=
  ∀ s : State, s.running = true → s.mem.size ≤ s.pc.toNat →
    ∃ t, step s = .next t ∧ OnlyFaults (.fetchAddressOutOfRange s.pc) s t

/-- R83 and R86: `step` and `exec` are total with a next state as their only outcome. No instruction and no
state ends a run in an outcome outside the machine (`notes/assumptions/2.md`). -/
def Obligations.StepAlwaysAnswersNext : Prop :=
  (∀ s : State, ∃ t, step s = .next t) ∧ (∀ (i : Instr) (s : State), ∃ t, exec i s = .next t)

/-- R86 (the spec's decision D9, `notes/assumptions/8.md`): a step changes nothing exactly when the machine
is Halted or Faulted. Every cycle of a Running machine changes something. -/
def Obligations.StepIsIdentityExactlyWhenNotRunning : Prop :=
  ∀ s : State, step s = .next s ↔ s.running = false

/-- R85, R86, R139 (D9): a run that has ended stays where it is, for any number of further steps. -/
def Obligations.EndedRunNeverChanges : Prop :=
  ∀ (k : Nat) (s : State), s.halt = true ∨ s.fault ≠ none → Host.Core.run Sys2Proof.core k s = .next s

/-- R19, R82, R163 (D13, `notes/assumptions/10.md`): a cycle that completes counts one, a faulting one
none; so a machine still running after `k` steps has counted `k`, and no run counts more. -/
def Obligations.CycleCounterCountsCompletedCycles : Prop :=
  (∀ s t : State, s.running = true → step s = .next t →
    t.cycles = s.cycles + (if t.fault = none then 1 else 0)) ∧
  (∀ (k : Nat) (s t : State), Host.Core.run Sys2Proof.core k s = .next t →
    t.cycles ≤ s.cycles + k ∧ (t.running = true → t.cycles = s.cycles + k))

/-- R12 as an upper bound: no instruction reads or writes a register beyond those R12 names for it. (That the
named ones are read and written, and with what result, is each instruction's own statement above.) A register
that R12 does not name as written is as before; a faulting cycle writes none; the effect on everything, the written register included, depends on
no register that R12 does not name as read; an Invalid word touches none; the host neither reads nor writes
one. -/
def Obligations.RegisterAccessFollowsTable : Prop :=
  (∀ (i : Instr) (s t : State), exec i s = .next t →
    (∀ r, writesOf i ≠ some r → t.reg r = s.reg r) ∧ (t.cycles = s.cycles → t.x = s.x)) ∧
  (∀ (i : Instr) (s s' t t' : State), s' = { s with x := s'.x } →
    (∀ r ∈ readsOf i, s'.reg r = s.reg r) → exec i s = .next t → exec i s' = .next t' →
      t' = { t with x := t'.x } ∧
      ∀ r, writesOf i = some r → t.cycles = s.cycles + 1 → t'.reg r = t.reg r) ∧
  (∀ (op : Opcode) (s t : State) (x' : Vector Word 16), execInvalid op s = .next t →
    t.x = s.x ∧ execInvalid op { s with x := x' } = .next { t with x := x' }) ∧
  (∀ (s t : State) (a : Nat) (v : Word), s.hostWrite? a v = some t → t.x = s.x) ∧
  (∀ (s : State) (a : Nat) (x' : Vector Word 16),
    ({ s with x := x' } : State).hostRead? a = s.hostRead? a ∧ ({ s with x := x' } : State).report? = s.report?)

/-- R32, R34, R39: a step changes at most one word of memory, only by a completed `store`, only at the
address that `store` names; the size of memory never changes. -/
def Obligations.OnlyStoreChangesMemory : Prop :=
  ∀ s t : State, step s = .next t →
    t.mem.size = s.mem.size ∧
    (SameMemory s t ∨
      ∃ w addr, s.running = true ∧ s.fetch = some w ∧ decode w = .instr (.store addr) ∧
        ∀ a : Nat, a ≠ effectiveAddress addr → t.mem.read? a = s.mem.read? a)

/-- R130, R133, R136: a cycle of a Running machine faults exactly in the cases of R130, with the fault and
the value recorded there, and a faulting cycle changes nothing but the fault status; every other cycle
leaves it none (D2, D3, D4, D10; `notes/assumptions/2.md`, `notes/assumptions/3.md`). -/
def Obligations.FaultsExactlyAsTheEventTableSays : Prop :=
  ∀ s t : State, s.running = true → step s = .next t →
    match causedFault s with
    | some f => OnlyFaults f s t
    | none => t.fault = none ∧ Counted s t

/-- R35, R36, R134, R135: with `MEM_WORDS = 256` no address fault is ever raised. -/
def Obligations.FullMemoryRaisesNoAddressFault : Prop :=
  ∀ s t : State, s.mem.size = 256 → s.running = true → step s = .next t →
    ∀ a : Addr, t.fault ≠ some (.fetchAddressOutOfRange a) ∧ t.fault ≠ some (.dataAddressOutOfRange a)

/-- R19, R141: no instruction reads the cycle counter. Two states that differ in it alone stay so through
any number of steps, and count the same. -/
def Obligations.CycleCounterIsUnobservable : Prop :=
  ∀ (k : Nat) (s t : State) (c : Nat), Host.Core.run Sys2Proof.core k s = .next t →
    ∃ c', Host.Core.run Sys2Proof.core k { s with cycles := c } = .next { t with cycles := c' } ∧
      c' + s.cycles = t.cycles + c

/-- R13: no instruction reads `pc` into a register or anywhere else but `pc` itself and a fault's record. -/
def Obligations.PcReachesNoRegisterOrMemory : Prop :=
  ∀ (i : Instr) (s t t' : State) (p : Addr), exec i s = .next t → exec i { s with pc := p } = .next t' →
    t'.x = t.x ∧ t'.mem = t.mem ∧ t'.halt = t.halt ∧ t'.diag = t.diag ∧ t'.cycles = t.cycles ∧
    (t'.fault = t.fault ∨ t'.fault = some (.divisionByZero p))

/-- R24, R83, R86, the whole machine: one step of the model is one application of the spec's step function,
transcribed on natural numbers, in every state. It rests on every decision R83 takes in (D2 to D6, D8 to
D10, D12 to D14). -/
def Obligations.StepRefinesSpecStepFunction : Prop :=
  ∀ s : State, ∃ t, step s = .next t ∧ specState t = specStep (specState s)

/-! ## Reset, the invariant, the host -/

/-- R23, R150: the state after reset, for any `MEM_WORDS`, and this hardware's 64 words. The value of `pc`
is the spec's decision D7 (`notes/assumptions/4.md`), the three status fields are D10, D12, D13, and 64 is
D1 (`notes/assumptions/1.md`). -/
def Obligations.ResetLeavesSpecValues : Prop :=
  (∀ n : Nat,
    (∀ r, (State.resetWith n).reg r = 0) ∧
    (∀ a : Nat, (State.resetWith n).mem.read? a = if a < n then some 0 else none) ∧
    (State.resetWith n).pc = 0 ∧ (State.resetWith n).halt = false ∧ (State.resetWith n).fault = none ∧
    (State.resetWith n).diag = none ∧ (State.resetWith n).cycles = 0) ∧
  State.reset = State.resetWith 64

/-- The invariant holds after reset, for every legal `MEM_WORDS` (R5, R24). Its clause on the canonical form
of memory is the model's choice (DESIGN CHOICE, `notes/assumptions/13.md`). -/
def Obligations.ResetMeetsInvariant : Prop :=
  (∀ n : Nat, 1 ≤ n → n ≤ 256 → (State.resetWith n).Inv) ∧ State.reset.Inv

/-- R24, R133: every step keeps the invariant: memory canonical and of legal size, `halt` and a fault never
both, a diagnostic only when halted, a fault still explained by the instruction at `pc`, a halt by the word
before `pc`. That memory has a canonical form at all is the model's choice (DESIGN CHOICE,
`notes/assumptions/13.md`) and no rule of the spec; the clauses on `halt`, the fault and the diagnostic are
the spec's own derivation in R24; the explanations rest on D2, D3, D4 (`notes/assumptions/3.md`), D8
(`notes/assumptions/7.md`) and D10 (`notes/assumptions/2.md`). -/
def Obligations.StepKeepsInvariant : Prop :=
  ∀ s t : State, s.Inv → step s = .next t → t.Inv

/-- R153 (V6): a launch image of exactly `MEM_WORDS` words gives the reset state with memory holding the
image word for word, and the invariant holds there (its canonical form of memory is the model's choice,
`notes/assumptions/13.md`). -/
def Obligations.LaunchPlacesImage : Prop :=
  ∀ (n : Nat) (image : List Word), 1 ≤ n → n ≤ 256 → image.length = n →
    ∃ s, State.launch? n image = some s ∧ (∀ a : Nat, s.mem.read? a = image[a]?) ∧
      s = { State.resetWith n with mem := s.mem } ∧ s.Inv

/-- R152: the loader places a program that ends before the data region from address 0 and pushes values from
address 32 upward; every word it does not write reads 0; it writes nothing but memory. -/
def Obligations.LoaderPlacesProgramAndValues : Prop :=
  ∀ (n : Nat) (program values : List Word), n ≤ 256 → program.length ≤ 32 → program.length ≤ n →
    32 + values.length ≤ n →
    ∃ s, State.loaded? n program values = some s ∧ s = { State.resetWith n with mem := s.mem } ∧
      (∀ a : Nat, a < program.length → s.mem.read? a = program[a]?) ∧
      (∀ k : Nat, k < values.length → s.mem.read? (32 + k) = values[k]?) ∧
      (∀ a : Nat, a < n → program.length ≤ a → a < 32 → s.mem.read? a = some 0) ∧
      (∀ a : Nat, a < n → 32 + values.length ≤ a → s.mem.read? a = some 0)

/-- R155, R156 (D18, `notes/assumptions/11.md`): while the machine is Running the host reads nothing, and
writes one memory word only before the first cycle; then it can write any word that exists, with any value;
after the run has ended it reads every word and the report. -/
def Obligations.HostActsOnlyOutsideTheRun : Prop :=
  (∀ s : State, s.running = true → (∀ a : Nat, s.hostRead? a = none) ∧ s.report? = none) ∧
  (∀ s : State, s.running = false → (∀ a : Nat, s.hostRead? a = s.mem.read? a) ∧
    s.report? = some ⟨s.cycles, s.mem.read? 32, s.halt, s.diag, s.fault⟩) ∧
  (∀ (s t : State) (a : Nat) (v : Word), s.hostWrite? a v = some t →
    s.running = true ∧ s.cycles = 0 ∧ t = { s with mem := t.mem } ∧ t.mem.read? a = some v ∧
      ∀ b : Nat, b ≠ a → t.mem.read? b = s.mem.read? b) ∧
  (∀ (s : State) (a : Nat) (v : Word), s.beforeFirstCycle = true → a < s.mem.size →
    ∃ t, s.hostWrite? a v = some t) ∧
  (∀ s : State, s.beforeFirstCycle = true ↔ s.running = true ∧ s.cycles = 0)

/-- R130 (D11, `notes/assumptions/14.md`): after a cycle of a Running machine with no diagnostic, the event
code is 0 where nothing happened or `ret` ran, 1 after an invalid opcode, 2, 3 or 4 after the three faults. -/
def Obligations.EventCodeNamesTheEvent : Prop :=
  ∀ s t : State, s.running = true → s.diag = none → step s = .next t →
    (t.eventCode = 0 ↔ t.fault = none ∧ t.diag = none) ∧
    (t.eventCode = 1 ↔ ∃ op, t.diag = some (.invalidOpcode op)) ∧
    (t.eventCode = 2 ↔ ∃ p, t.fault = some (.divisionByZero p)) ∧
    (t.eventCode = 3 ↔ ∃ p, t.fault = some (.fetchAddressOutOfRange p)) ∧
    (t.eventCode = 4 ↔ ∃ a, t.fault = some (.dataAddressOutOfRange a))

/-- The model's stand-in for a load (`notes/assumptions/15.md`): the next step from `withFetchWord` fetches
exactly the given word, and from a Running state whose `pc` has a cell nothing but that cell changed. -/
def Obligations.WithFetchWordIsFetchedNext : Prop :=
  ∀ (s : State) (nbits w : Nat), 1 ≤ s.mem.size →
    (s.withFetchWord nbits w).running = true ∧
    (s.withFetchWord nbits w).fetch = some (tableWord nbits w) ∧
    (s.running = true → s.pc.toNat < s.mem.size →
      s.withFetchWord nbits w = { s with mem := (s.withFetchWord nbits w).mem } ∧
      ∀ a : Nat, a ≠ s.pc.toNat → (s.withFetchWord nbits w).mem.read? a = s.mem.read? a)
end

