-- ==== Sys2Proof/Laws/Decode.lean ====
section
/-! SUPPORT. The fields of an encoded word, and what the decoder reads from a word by its opcode
(`30_encoding.md` R52 to R56). -/

namespace Sys2Proof

/-! ## Fields as numbers (R6) -/

theorem opcodeOf_toNat (w : Word) : (opcodeOf w).toNat = w.toNat / 256 := by
  have := w.isLt
  simp only [opcodeOf, slice, BitVec.extractLsb'_toNat, Nat.shiftRight_eq_div_pow]
  omega

theorem rtOf_val (w : Word) : (rtOf w).val = w.toNat / 16 % 16 := by
  have h : (rtOf w).val = (w.extractLsb' 4 4).toNat := rfl
  rw [h, BitVec.extractLsb'_toNat, Nat.shiftRight_eq_div_pow]

theorem rsOf_val (w : Word) : (rsOf w).val = w.toNat % 16 := by
  have h : (rsOf w).val = (w.extractLsb' 0 4).toNat := rfl
  rw [h, BitVec.extractLsb'_toNat, Nat.shiftRight_zero]

theorem addrOf_toNat (w : Word) : (addrOf w).toNat = w.toNat % 256 := by
  simp [addrOf, slice, BitVec.extractLsb'_toNat]

/-- The mask of every row of the opcode map keeps the opcode in place (R58). -/
theorem and_opcodeMask_toNat (w : Word) : (w &&& 0xFF00#16).toNat = w.toNat / 256 * 256 := by
  have hw := w.isLt
  have h1 : (w &&& 0xFF00#16) = (w >>> 8) <<< 8 := by
    apply BitVec.eq_of_getLsbD_eq
    intro i hi
    simp only [BitVec.getLsbD_and, BitVec.getLsbD_shiftLeft, BitVec.getLsbD_ushiftRight]
    interval_cases i <;> simp
  rw [h1]
  simp only [BitVec.toNat_shiftLeft, BitVec.toNat_ushiftRight, Nat.shiftLeft_eq, Nat.shiftRight_eq_div_pow]
  omega

/-! ## Encoded words as numbers -/

theorem encodeR_toNat (op : Opcode) (rt rs : RegIndex) :
    (encodeR op rt rs).toNat = op.toNat * 256 + rt.val * 16 + rs.val := by
  have ht := rt.isLt
  have hs := rs.isLt
  have h1 : (op ++ (BitVec.ofFin rt : BitVec 4)).toNat = op.toNat * 16 + rt.val := by
    rw [BitVec.toNat_append, ← Nat.shiftLeft_add_eq_or_of_lt (by simp), Nat.shiftLeft_eq]
    rfl
  have h2 : (encodeR op rt rs).toNat = (op ++ (BitVec.ofFin rt : BitVec 4)).toNat * 16 + rs.val := by
    unfold encodeR
    rw [BitVec.toNat_append, ← Nat.shiftLeft_add_eq_or_of_lt (by simp), Nat.shiftLeft_eq]
    rfl
  rw [h2, h1]
  omega

theorem encodeA_toNat (op : Opcode) (addr : Addr) : (encodeA op addr).toNat = op.toNat * 256 + addr.toNat := by
  unfold encodeA
  rw [BitVec.toNat_append, ← Nat.shiftLeft_add_eq_or_of_lt addr.isLt, Nat.shiftLeft_eq]

/-! ## Fields of encoded words -/

@[simp] theorem opcodeOf_encodeR (op : Opcode) (rt rs : RegIndex) : opcodeOf (encodeR op rt rs) = op := by
  apply BitVec.eq_of_toNat_eq
  rw [opcodeOf_toNat, encodeR_toNat]
  omega

@[simp] theorem rtOf_encodeR (op : Opcode) (rt rs : RegIndex) : rtOf (encodeR op rt rs) = rt := by
  apply Fin.ext
  rw [rtOf_val, encodeR_toNat]
  omega

@[simp] theorem rsOf_encodeR (op : Opcode) (rt rs : RegIndex) : rsOf (encodeR op rt rs) = rs := by
  apply Fin.ext
  rw [rsOf_val, encodeR_toNat]
  omega

@[simp] theorem opcodeOf_encodeA (op : Opcode) (addr : Addr) : opcodeOf (encodeA op addr) = op := by
  apply BitVec.eq_of_toNat_eq
  rw [opcodeOf_toNat, encodeA_toNat]
  omega

@[simp] theorem addrOf_encodeA (op : Opcode) (addr : Addr) : addrOf (encodeA op addr) = addr := by
  apply BitVec.eq_of_toNat_eq
  rw [addrOf_toNat, encodeA_toNat]
  omega

/-! ## The decoder by opcode -/

/-- All the decoder can answer: the row of the opcode with the fields of its form, or Invalid. -/
theorem decode_cases (w : Word) :
    (w.toNat / 256 = 0 ∧ decode w = .instr (.mov (rtOf w) (rsOf w))) ∨
    (w.toNat / 256 = 1 ∧ decode w = .instr (.add (rtOf w) (rsOf w))) ∨
    (w.toNat / 256 = 2 ∧ decode w = .instr (.sub (rtOf w) (rsOf w))) ∨
    (w.toNat / 256 = 3 ∧ decode w = .instr (.mul (rtOf w) (rsOf w))) ∨
    (w.toNat / 256 = 4 ∧ decode w = .instr (.div (rtOf w) (rsOf w))) ∨
    (w.toNat / 256 = 5 ∧ decode w = .instr (.load (addrOf w))) ∨
    (w.toNat / 256 = 6 ∧ decode w = .instr (.store (addrOf w))) ∨
    (w.toNat / 256 = 7 ∧ decode w = .instr (.jnz (addrOf w))) ∨
    (w.toNat / 256 = 8 ∧ decode w = .instr (.j (addrOf w))) ∨
    (w.toNat / 256 = 9 ∧ decode w = .instr .ret) ∨
    (10 ≤ w.toNat / 256 ∧ decode w = .invalid (opcodeOf w)) := by
  rw [← opcodeOf_toNat]
  unfold decode
  split <;> simp_all
  omega

end Sys2Proof
end

