-- ==== Sys2Proof/Laws/Memory.lean ====
section
/-! SUPPORT. The laws of the memory array: read after write, the words a write leaves alone, and that every
memory operation keeps the canonical form (`20_memory.md` R33, R34). -/

namespace Sys2Proof.Machine

/-! ## Cells -/

theorem lookupCell_eraseCell_same (cs : List Cell) (a : Nat) :
    lookupCell (eraseCell cs a) a = Config.unlistedWord := by
  induction cs with
  | nil => rfl
  | cons c cs ih =>
    by_cases h : c.1 = a
    · simp [eraseCell, h, ih]
    · simp [eraseCell, lookupCell, h, ih]

theorem lookupCell_eraseCell_other (cs : List Cell) {a b : Nat} (hab : b ≠ a) :
    lookupCell (eraseCell cs a) b = lookupCell cs b := by
  induction cs with
  | nil => rfl
  | cons c cs ih =>
    by_cases h : c.1 = a
    · have : ¬ c.1 = b := fun hb => hab (hb.symm.trans h)
      simp only [eraseCell, if_pos h, lookupCell, if_neg this, ih]
    · simp only [eraseCell, if_neg h, lookupCell, ih]

theorem lookupCell_insertCell_same (cs : List Cell) (a : Nat) (v : Word) (hfree : ∀ c ∈ cs, c.1 ≠ a) :
    lookupCell (insertCell cs a v) a = v := by
  induction cs with
  | nil => simp [insertCell, lookupCell]
  | cons c cs ih =>
    have hc : c.1 ≠ a := hfree c (by simp)
    by_cases h : a < c.1
    · simp [insertCell, lookupCell, h]
    · simp only [insertCell, if_neg h, lookupCell, if_neg hc]
      exact ih fun d hd => hfree d (by simp [hd])

theorem lookupCell_insertCell_other (cs : List Cell) {a b : Nat} (v : Word) (hab : b ≠ a) :
    lookupCell (insertCell cs a v) b = lookupCell cs b := by
  induction cs with
  | nil => simp [insertCell, lookupCell, hab.symm]
  | cons c cs ih =>
    by_cases h : a < c.1
    · simp [insertCell, lookupCell, h, hab.symm]
    · simp only [insertCell, if_neg h, lookupCell, ih]

theorem ne_of_mem_eraseCell (cs : List Cell) (a : Nat) : ∀ c ∈ eraseCell cs a, c.1 ≠ a := by
  induction cs with
  | nil => simp [eraseCell]
  | cons c cs ih =>
    by_cases h : c.1 = a
    · simpa [eraseCell, h] using ih
    · simp only [eraseCell, if_neg h, List.mem_cons]
      rintro d (rfl | hd)
      · exact h
      · exact ih d hd

theorem lookupCell_putCell_same (cs : List Cell) (a : Nat) (v : Word) :
    lookupCell (putCell cs a v) a = v := by
  unfold putCell
  split
  · next h => rw [lookupCell_eraseCell_same, h]
  · exact lookupCell_insertCell_same _ a v (ne_of_mem_eraseCell cs a)

theorem lookupCell_putCell_other (cs : List Cell) {a b : Nat} (v : Word) (hab : b ≠ a) :
    lookupCell (putCell cs a v) b = lookupCell cs b := by
  unfold putCell
  split
  · exact lookupCell_eraseCell_other cs hab
  · rw [lookupCell_insertCell_other _ v hab, lookupCell_eraseCell_other cs hab]

/-! ## The canonical form -/

theorem cellsOk_cons {size lo : Nat} {c : Cell} {cs : List Cell} :
    cellsOk size lo (c :: cs) = true ↔
      lo ≤ c.1 ∧ c.1 < size ∧ c.2 ≠ Config.unlistedWord ∧ cellsOk size (c.1 + 1) cs = true := by
  simp [cellsOk, and_assoc]

theorem cellsOk_lower {size lo lo' : Nat} (h : lo' ≤ lo) :
    ∀ {cs : List Cell}, cellsOk size lo cs = true → cellsOk size lo' cs = true
  | [], _ => rfl
  | _ :: _, hcs => by
    obtain ⟨h1, h2, h3, h4⟩ := cellsOk_cons.1 hcs
    exact cellsOk_cons.2 ⟨h.trans h1, h2, h3, h4⟩

theorem cellsOk_eraseCell {size lo : Nat} {cs : List Cell} (a : Nat) (h : cellsOk size lo cs = true) :
    cellsOk size lo (eraseCell cs a) = true := by
  induction cs generalizing lo with
  | nil => rfl
  | cons c cs ih =>
    obtain ⟨h1, h2, h3, h4⟩ := cellsOk_cons.1 h
    by_cases hc : c.1 = a
    · simp only [eraseCell, if_pos hc]
      exact cellsOk_lower (by omega) (ih h4)
    · simp only [eraseCell, if_neg hc]
      exact cellsOk_cons.2 ⟨h1, h2, h3, ih h4⟩

theorem cellsOk_insertCell {size lo : Nat} {cs : List Cell} {a : Nat} {v : Word} (hlo : lo ≤ a)
    (ha : a < size) (hv : v ≠ Config.unlistedWord) (hfree : ∀ c ∈ cs, c.1 ≠ a)
    (h : cellsOk size lo cs = true) : cellsOk size lo (insertCell cs a v) = true := by
  induction cs generalizing lo with
  | nil => exact cellsOk_cons.2 ⟨hlo, ha, hv, rfl⟩
  | cons c cs ih =>
    obtain ⟨h1, h2, h3, h4⟩ := cellsOk_cons.1 h
    have hne : c.1 ≠ a := hfree c (by simp)
    by_cases hac : a < c.1
    · simp only [insertCell, if_pos hac]
      exact cellsOk_cons.2 ⟨hlo, ha, hv, cellsOk_cons.2 ⟨hac, h2, h3, h4⟩⟩
    · simp only [insertCell, if_neg hac]
      exact cellsOk_cons.2 ⟨h1, h2, h3, ih (by omega) (fun d hd => hfree d (by simp [hd])) h4⟩

theorem cellsOk_putCell {size : Nat} {cs : List Cell} {a : Nat} (v : Word) (ha : a < size)
    (h : cellsOk size 0 cs = true) : cellsOk size 0 (putCell cs a v) = true := by
  unfold putCell
  split
  · exact cellsOk_eraseCell a h
  · next hv =>
    exact cellsOk_insertCell (Nat.zero_le a) ha hv (ne_of_mem_eraseCell cs a) (cellsOk_eraseCell a h)

/-- Below the lower bound of a canonical list nothing is listed. -/
theorem lookupCell_below {size lo a : Nat} {cs : List Cell} (h : cellsOk size lo cs = true) (ha : a < lo) :
    lookupCell cs a = Config.unlistedWord := by
  induction cs generalizing lo with
  | nil => rfl
  | cons c cs ih =>
    obtain ⟨h1, -, -, h4⟩ := cellsOk_cons.1 h
    have : ¬ c.1 = a := by omega
    simp only [lookupCell, if_neg this]
    exact ih h4 (by omega)

/-! ## read? and write? -/

@[simp] theorem Memory.inRange_iff (m : Memory) (a : Nat) : m.inRange a = true ↔ a < m.size := by
  simp [Memory.inRange]

theorem Memory.read?_of_lt {m : Memory} {a : Nat} (h : a < m.size) :
    m.read? a = some (lookupCell m.cells a) := by
  simp [Memory.read?, h]

theorem Memory.read?_eq_none_iff {m : Memory} {a : Nat} : m.read? a = none ↔ m.size ≤ a := by
  simp [Memory.read?]

theorem Memory.lt_of_read? {m : Memory} {a : Nat} {w : Word} (h : m.read? a = some w) : a < m.size := by
  by_contra hn
  rw [Memory.read?_eq_none_iff.2 (not_lt.1 hn)] at h
  cases h

theorem Memory.write?_of_lt {m : Memory} {a : Nat} (v : Word) (h : a < m.size) :
    m.write? a v = some { m with cells := putCell m.cells a v } := by
  simp [Memory.write?, h]

theorem Memory.write?_eq_none_iff {m : Memory} {a : Nat} {v : Word} :
    m.write? a v = none ↔ m.size ≤ a := by
  simp [Memory.write?]

/-- All a write can do: the address is in range, its word becomes `v`, every other word and the size stay,
and the canonical form is kept. -/
theorem Memory.write?_cases {m m' : Memory} {a : Nat} {v : Word} (h : m.write? a v = some m') :
    a < m.size ∧ m'.size = m.size ∧ m'.read? a = some v ∧ (∀ b, b ≠ a → m'.read? b = m.read? b) ∧
      (m.wf = true → m'.wf = true) := by
  have ha : a < m.size := by
    by_contra hn
    rw [Memory.write?_eq_none_iff.2 (not_lt.1 hn)] at h
    cases h
  rw [Memory.write?_of_lt v ha] at h
  cases h
  refine ⟨ha, rfl, ?_, ?_, ?_⟩
  · simp [Memory.read?, ha, lookupCell_putCell_same]
  · intro b hb
    simp [Memory.read?, Memory.inRange, lookupCell_putCell_other m.cells v hb]
  · intro hwf
    simp only [Memory.wf, Bool.and_eq_true] at hwf ⊢
    exact ⟨hwf.1, cellsOk_putCell v ha hwf.2⟩

/-! ## Memories that have the form -/

theorem resetWith_mem_wf {n : Nat} (h : memWordsOk n = true) : (State.resetWith n).mem.wf = true := by
  simp [State.resetWith, Memory.wf, cellsOk, h]

theorem reset_mem_wf : State.reset.mem.wf = true := resetWith_mem_wf (by decide)

theorem Memory.fill?_wf {ws : List Word} : ∀ {m m' : Memory} {b : Nat}, m.fill? b ws = some m' →
    m.wf = true → m'.wf = true := by
  induction ws with
  | nil => intro m m' b h hm; cases h; exact hm
  | cons w ws ih =>
    intro m m' b h hm
    simp only [Memory.fill?, Option.bind_eq_some_iff] at h
    obtain ⟨m1, h1, h2⟩ := h
    exact ih h2 ((Memory.write?_cases h1).2.2.2.2 hm)

end Sys2Proof.Machine
end

