-- ==== Sys2Proof/Laws/State.lean ====
section
/-! SUPPORT. One lemma per field per update of State, each true by unfolding, so that no later proof unfolds
a record update. -/

namespace Sys2Proof.Machine

/-! ## State.setMem -/

@[simp] theorem State.setMem_x (s : State) (m : Memory) : (s.setMem m).x = s.x := rfl
@[simp] theorem State.setMem_mem (s : State) (m : Memory) : (s.setMem m).mem = m := rfl
@[simp] theorem State.setMem_pc (s : State) (m : Memory) : (s.setMem m).pc = s.pc := rfl
@[simp] theorem State.setMem_halt (s : State) (m : Memory) : (s.setMem m).halt = s.halt := rfl
@[simp] theorem State.setMem_fault (s : State) (m : Memory) : (s.setMem m).fault = s.fault := rfl
@[simp] theorem State.setMem_diag (s : State) (m : Memory) : (s.setMem m).diag = s.diag := rfl
@[simp] theorem State.setMem_cycles (s : State) (m : Memory) : (s.setMem m).cycles = s.cycles := rfl

/-! ## State.setReg -/

@[simp] theorem State.setReg_x (s : State) (i : RegIndex) (v : Word) : (s.setReg i v).x = s.x.set i.val v i.isLt := rfl
@[simp] theorem State.setReg_mem (s : State) (i : RegIndex) (v : Word) : (s.setReg i v).mem = s.mem := rfl
@[simp] theorem State.setReg_pc (s : State) (i : RegIndex) (v : Word) : (s.setReg i v).pc = s.pc := rfl
@[simp] theorem State.setReg_halt (s : State) (i : RegIndex) (v : Word) : (s.setReg i v).halt = s.halt := rfl
@[simp] theorem State.setReg_fault (s : State) (i : RegIndex) (v : Word) : (s.setReg i v).fault = s.fault := rfl
@[simp] theorem State.setReg_diag (s : State) (i : RegIndex) (v : Word) : (s.setReg i v).diag = s.diag := rfl
@[simp] theorem State.setReg_cycles (s : State) (i : RegIndex) (v : Word) : (s.setReg i v).cycles = s.cycles := rfl

/-! ## State.complete -/

@[simp] theorem State.complete_x (s : State) (tr : Option Addr) : (s.complete tr).x = s.x := rfl
@[simp] theorem State.complete_mem (s : State) (tr : Option Addr) : (s.complete tr).mem = s.mem := rfl
@[simp] theorem State.complete_pc (s : State) (tr : Option Addr) : (s.complete tr).pc = nextPc tr s.pc := rfl
@[simp] theorem State.complete_halt (s : State) (tr : Option Addr) : (s.complete tr).halt = s.halt := rfl
@[simp] theorem State.complete_fault (s : State) (tr : Option Addr) : (s.complete tr).fault = s.fault := rfl
@[simp] theorem State.complete_diag (s : State) (tr : Option Addr) : (s.complete tr).diag = s.diag := rfl
@[simp] theorem State.complete_cycles (s : State) (tr : Option Addr) : (s.complete tr).cycles = s.cycles + 1 := rfl

/-! ## State.raise -/

@[simp] theorem State.raise_x (s : State) (f : Fault) : (s.raise f).x = s.x := rfl
@[simp] theorem State.raise_mem (s : State) (f : Fault) : (s.raise f).mem = s.mem := rfl
@[simp] theorem State.raise_pc (s : State) (f : Fault) : (s.raise f).pc = s.pc := rfl
@[simp] theorem State.raise_halt (s : State) (f : Fault) : (s.raise f).halt = s.halt := rfl
@[simp] theorem State.raise_fault (s : State) (f : Fault) : (s.raise f).fault = some f := rfl
@[simp] theorem State.raise_diag (s : State) (f : Fault) : (s.raise f).diag = s.diag := rfl
@[simp] theorem State.raise_cycles (s : State) (f : Fault) : (s.raise f).cycles = s.cycles := rfl

/-! ## State.setHalt -/

@[simp] theorem State.setHalt_x (s : State) : (s.setHalt).x = s.x := rfl
@[simp] theorem State.setHalt_mem (s : State) : (s.setHalt).mem = s.mem := rfl
@[simp] theorem State.setHalt_pc (s : State) : (s.setHalt).pc = s.pc := rfl
@[simp] theorem State.setHalt_halt (s : State) : (s.setHalt).halt = true := rfl
@[simp] theorem State.setHalt_fault (s : State) : (s.setHalt).fault = s.fault := rfl
@[simp] theorem State.setHalt_diag (s : State) : (s.setHalt).diag = s.diag := rfl
@[simp] theorem State.setHalt_cycles (s : State) : (s.setHalt).cycles = s.cycles := rfl

/-! ## State.latchDiag -/

@[simp] theorem State.latchDiag_x (s : State) (op : Opcode) : (s.latchDiag op).x = s.x := rfl
@[simp] theorem State.latchDiag_mem (s : State) (op : Opcode) : (s.latchDiag op).mem = s.mem := rfl
@[simp] theorem State.latchDiag_pc (s : State) (op : Opcode) : (s.latchDiag op).pc = s.pc := rfl
@[simp] theorem State.latchDiag_halt (s : State) (op : Opcode) : (s.latchDiag op).halt = s.halt := rfl
@[simp] theorem State.latchDiag_fault (s : State) (op : Opcode) : (s.latchDiag op).fault = s.fault := rfl
@[simp] theorem State.latchDiag_diag (s : State) (op : Opcode) : (s.latchDiag op).diag = some (.invalidOpcode op) := rfl
@[simp] theorem State.latchDiag_cycles (s : State) (op : Opcode) : (s.latchDiag op).cycles = s.cycles := rfl

end Sys2Proof.Machine
end

