-- ==== Sys2Proof/Laws/Ops.lean ====
section
/-! SUPPORT. The laws of the register file, the program counter and the arithmetic (`40_cycle_and_blocks.md`
R72, R73; `41_register_form.md` R106). -/

namespace Sys2Proof.Machine

/-! ## register_file -/

@[simp] theorem State.reg_setReg_same (s : State) (i : RegIndex) (v : Word) : (s.setReg i v).reg i = v := by
  simp [State.reg, State.setReg]

theorem State.reg_setReg_other (s : State) {i k : RegIndex} (v : Word) (h : k ≠ i) :
    (s.setReg i v).reg k = s.reg k := by
  have : i.val ≠ k.val := fun e => h (Fin.ext e.symm)
  simp [State.reg, State.setReg, Vector.getElem_set_ne, this]

@[simp] theorem State.reg_setMem (s : State) (m : Memory) (k : RegIndex) : (s.setMem m).reg k = s.reg k := rfl

@[simp] theorem State.reg_complete (s : State) (tr : Option Addr) (k : RegIndex) :
    (s.complete tr).reg k = s.reg k := rfl

@[simp] theorem State.reg_raise (s : State) (f : Fault) (k : RegIndex) : (s.raise f).reg k = s.reg k := rfl

@[simp] theorem State.reg_setHalt (s : State) (k : RegIndex) : s.setHalt.reg k = s.reg k := rfl

@[simp] theorem State.reg_latchDiag (s : State) (op : Opcode) (k : RegIndex) :
    (s.latchDiag op).reg k = s.reg k := rfl

/-- Two register files that read the same are the same. -/
theorem State.x_ext {s t : State} (h : ∀ k, t.reg k = s.reg k) : t.x = s.x := by
  apply Vector.ext
  intro i hi
  exact h ⟨i, hi⟩

/-! ## program_counter -/

@[simp] theorem incPc_toNat (pc : Addr) : (incPc pc).toNat = (pc.toNat + 1) % 256 := by
  simp [incPc]

theorem incPc_eq_add (pc : Addr) : incPc pc = pc + 1 := by
  apply BitVec.eq_of_toNat_eq
  simp [BitVec.toNat_add]

theorem incPc_sub_one (pc : Addr) : incPc pc - 1 = pc := by
  rw [incPc_eq_add, BitVec.add_sub_cancel]

@[simp] theorem nextPc_none (pc : Addr) : nextPc none pc = incPc pc := rfl

@[simp] theorem nextPc_some (target pc : Addr) : nextPc (some target) pc = target := rfl

/-! ## writeBack -/

@[simp] theorem writeBack_reg_same (s : State) (rd : RegIndex) (v : Word) : (writeBack s rd v).reg rd = v := by
  simp [writeBack]

theorem writeBack_reg_other (s : State) {rd k : RegIndex} (v : Word) (h : k ≠ rd) :
    (writeBack s rd v).reg k = s.reg k := by
  simp [writeBack, State.reg_setReg_other s v h]

@[simp] theorem writeBack_x (s : State) (rd : RegIndex) (v : Word) :
    (writeBack s rd v).x = s.x.set rd.val v rd.isLt := rfl

@[simp] theorem writeBack_mem (s : State) (rd : RegIndex) (v : Word) : (writeBack s rd v).mem = s.mem := rfl

@[simp] theorem writeBack_pc (s : State) (rd : RegIndex) (v : Word) : (writeBack s rd v).pc = incPc s.pc := rfl

@[simp] theorem writeBack_halt (s : State) (rd : RegIndex) (v : Word) : (writeBack s rd v).halt = s.halt := rfl

@[simp] theorem writeBack_fault (s : State) (rd : RegIndex) (v : Word) : (writeBack s rd v).fault = s.fault := rfl

@[simp] theorem writeBack_diag (s : State) (rd : RegIndex) (v : Word) : (writeBack s rd v).diag = s.diag := rfl

@[simp] theorem writeBack_cycles (s : State) (rd : RegIndex) (v : Word) :
    (writeBack s rd v).cycles = s.cycles + 1 := rfl

/-! ## Arithmetic -/

theorem addWord_toNat (a b : Word) : (addWord a b).toNat = (a.toNat + b.toNat) % 65536 := by
  simp [addWord]

theorem subWord_toNat (a b : Word) : ((subWord a b).toNat : Int) = ((a.toNat : Int) - b.toNat) % 65536 := by
  simp only [subWord, BitVec.toNat_ofInt]
  omega

theorem mulWord_toNat (a b : Word) : (mulWord a b).toNat = (a.toNat * b.toNat) % 65536 := by
  simp [mulWord]

theorem divWord_eq_none_iff {a b : Word} : divWord a b = none ↔ b = 0 := by
  simp [divWord]

/-- The quotient where there is one. -/
theorem divWord_toNat {a b q : Word} (h : divWord a b = some q) : b ≠ 0 ∧ q.toNat = a.toNat / b.toNat := by
  unfold divWord at h
  split at h
  · cases h
  · next hb =>
    cases h
    refine ⟨hb, ?_⟩
    rw [BitVec.toNat_ofNat]
    exact Nat.mod_eq_of_lt (lt_of_le_of_lt (Nat.div_le_self _ _) a.isLt)

end Sys2Proof.Machine
end

