-- ==== Sys2Proof/Laws/Exec.lean ====
section
/-! SUPPORT. What each meaning answers, case by case, and what a step can do, said once: every later proof
cites these and unfolds neither `exec` nor `step`. -/

namespace Sys2Proof.Machine

/-! ## The meanings with more than one case -/

theorem execDiv_of_ne {rt rs : RegIndex} {s : State} (h : s.reg rs ≠ 0) :
    ∃ q, divWord (s.reg rt) (s.reg rs) = some q ∧ exec (.div rt rs) s = .next (writeBack s rt q) := by
  cases hq : divWord (s.reg rt) (s.reg rs) with
  | none => exact absurd (divWord_eq_none_iff.1 hq) h
  | some q => exact ⟨q, rfl, by simp [exec, execDiv, leftOperand, rightOperand, hq]⟩

theorem execDiv_of_zero {rt rs : RegIndex} {s : State} (h : s.reg rs = 0) :
    exec (.div rt rs) s = .next (s.raise (.divisionByZero s.pc)) := by
  have hq : divWord (s.reg rt) (s.reg rs) = none := divWord_eq_none_iff.2 h
  simp [exec, execDiv, leftOperand, rightOperand, hq]

theorem execLoad_of_lt {addr : Addr} {s : State} (h : addr.toNat < s.mem.size) :
    exec (.load addr) s = .next (writeBack s 0 (lookupCell s.mem.cells addr.toNat)) := by
  simp [exec, execLoad, effectiveAddress, accumulator, Memory.read?_of_lt h]

theorem execLoad_of_ge {addr : Addr} {s : State} (h : s.mem.size ≤ addr.toNat) :
    exec (.load addr) s = .next (s.raise (.dataAddressOutOfRange addr)) := by
  simp [exec, execLoad, effectiveAddress, Memory.read?_eq_none_iff.2 h]

theorem execStore_of_lt {addr : Addr} {s : State} (h : addr.toNat < s.mem.size) :
    ∃ m, s.mem.write? addr.toNat (s.reg 0) = some m ∧
      exec (.store addr) s = .next ((s.setMem m).complete none) := by
  refine ⟨_, Memory.write?_of_lt (s.reg 0) h, ?_⟩
  simp [exec, execStore, effectiveAddress, accumulator, Memory.write?_of_lt _ h]

theorem execStore_of_ge {addr : Addr} {s : State} (h : s.mem.size ≤ addr.toNat) :
    exec (.store addr) s = .next (s.raise (.dataAddressOutOfRange addr)) := by
  simp [exec, execStore, effectiveAddress, Memory.write?_eq_none_iff.2 h]

theorem execJnz_of_ne {addr : Addr} {s : State} (h : s.reg 0 ≠ 0) :
    exec (.jnz addr) s = .next (s.complete (some addr)) := by
  have ht : jnzTransfer s addr = some addr := if_pos h
  simp only [exec, execJnz, ht]

theorem execJnz_of_zero {addr : Addr} {s : State} (h : s.reg 0 = 0) :
    exec (.jnz addr) s = .next (s.complete none) := by
  have ht : jnzTransfer s addr = none := if_neg (not_not.2 h)
  simp only [exec, execJnz, ht]

/-! ## exec as a whole -/

/-- The register an instruction writes when it completes (`10_state.md` R12). -/
def Instr.dest? : Instr → Option RegIndex
  | .mov rt _ => some rt
  | .add rt _ => some rt
  | .sub rt _ => some rt
  | .mul rt _ => some rt
  | .div rt _ => some rt
  | .load _ => some 0
  | .store _ => none
  | .jnz _ => none
  | .j _ => none
  | .ret => none

/-- The cycle of an instruction: exactly one of these happens. -/
inductive CycleEffect (i : Instr) (s : State) : State → Prop where
  | register (rd : RegIndex) (v : Word) (h : Instr.dest? i = some rd) : CycleEffect i s (writeBack s rd v)
  | memory (addr : Addr) (m : Memory) (hi : i = .store addr)
      (h : s.mem.write? addr.toNat (s.reg 0) = some m) : CycleEffect i s ((s.setMem m).complete none)
  | jump (addr : Addr) (hi : i = .j addr ∨ i = .jnz addr ∧ s.reg 0 ≠ 0) :
      CycleEffect i s (s.complete (some addr))
  | fallThrough (addr : Addr) (hi : i = .jnz addr) (h : s.reg 0 = 0) : CycleEffect i s (s.complete none)
  | halt (hi : i = .ret) : CycleEffect i s (s.setHalt.complete none)
  | division (rt rs : RegIndex) (hi : i = .div rt rs) (h : s.reg rs = 0) :
      CycleEffect i s (s.raise (.divisionByZero s.pc))
  | address (addr : Addr) (hi : i = .load addr ∨ i = .store addr) (h : s.mem.size ≤ addr.toNat) :
      CycleEffect i s (s.raise (.dataAddressOutOfRange addr))

/-- The only thing `exec` answers is the next state of a `CycleEffect`. -/
theorem exec_effect (i : Instr) (s : State) : ∃ t, exec i s = .next t ∧ CycleEffect i s t := by
  cases i with
  | mov rt rs => exact ⟨_, rfl, .register rt _ rfl⟩
  | add rt rs => exact ⟨_, rfl, .register rt _ rfl⟩
  | sub rt rs => exact ⟨_, rfl, .register rt _ rfl⟩
  | mul rt rs => exact ⟨_, rfl, .register rt _ rfl⟩
  | div rt rs =>
    by_cases h : s.reg rs = 0
    · exact ⟨_, execDiv_of_zero h, .division rt rs rfl h⟩
    · obtain ⟨q, -, hq⟩ := execDiv_of_ne (rt := rt) h
      exact ⟨_, hq, .register rt q rfl⟩
  | load addr =>
    rcases lt_or_ge addr.toNat s.mem.size with h | h
    · exact ⟨_, execLoad_of_lt h, .register 0 _ rfl⟩
    · exact ⟨_, execLoad_of_ge h, .address addr (.inl rfl) h⟩
  | store addr =>
    rcases lt_or_ge addr.toNat s.mem.size with h | h
    · obtain ⟨m, hm, he⟩ := execStore_of_lt h
      exact ⟨_, he, .memory addr m rfl hm⟩
    · exact ⟨_, execStore_of_ge h, .address addr (.inr rfl) h⟩
  | jnz addr =>
    by_cases h : s.reg 0 = 0
    · exact ⟨_, execJnz_of_zero h, .fallThrough addr rfl h⟩
    · exact ⟨_, execJnz_of_ne h, .jump addr (.inr ⟨rfl, h⟩)⟩
  | j addr => exact ⟨_, rfl, .jump addr (.inl rfl)⟩
  | ret => exact ⟨_, rfl, .halt rfl⟩

theorem exec_cases {i : Instr} {s t : State} (h : exec i s = .next t) : CycleEffect i s t := by
  obtain ⟨u, hu, hc⟩ := exec_effect i s
  rw [h] at hu
  cases hu
  exact hc

/-! ## step -/

theorem State.running_iff (s : State) : s.running = true ↔ s.halt = false ∧ s.fault = none := by
  simp [State.running]

theorem step_of_not_running {s : State} (h : s.running = false) : step s = .next s := by
  simp [step, h]

theorem step_of_fetch_none {s : State} (hr : s.running = true) (hf : s.fetch = none) :
    step s = .next (s.raise (.fetchAddressOutOfRange s.pc)) := by
  simp [step, hr, hf, fetchFault]

theorem step_of_instr {s : State} {w : Word} {i : Instr} (hr : s.running = true) (hf : s.fetch = some w)
    (hd : decode w = .instr i) : step s = exec i s := by
  simp [step, hr, hf, hd]

theorem step_of_invalid {s : State} {w : Word} {op : Opcode} (hr : s.running = true) (hf : s.fetch = some w)
    (hd : decode w = .invalid op) : step s = .next ((s.setHalt.latchDiag op).complete none) := by
  simp [step, hr, hf, hd, execInvalid]

/-- One application of the step: exactly one of these happens. -/
inductive StepEffect (s : State) : State → Prop where
  | still (h : s.running = false) : StepEffect s s
  | fetchFault (hr : s.running = true) (hf : s.fetch = none) :
      StepEffect s (s.raise (.fetchAddressOutOfRange s.pc))
  | instr (hr : s.running = true) (w : Word) (hf : s.fetch = some w) (i : Instr) (hd : decode w = .instr i)
      (t : State) (he : exec i s = .next t) (hc : CycleEffect i s t) : StepEffect s t
  | invalid (hr : s.running = true) (w : Word) (hf : s.fetch = some w) (op : Opcode)
      (hd : decode w = .invalid op) : StepEffect s ((s.setHalt.latchDiag op).complete none)

/-- The only thing `step` answers is the next state of a `StepEffect`. -/
theorem step_effect (s : State) : ∃ t, step s = .next t ∧ StepEffect s t := by
  by_cases hr : s.running = true
  · cases hf : s.fetch with
    | none => exact ⟨_, step_of_fetch_none hr hf, .fetchFault hr hf⟩
    | some w =>
      cases hd : decode w with
      | instr i =>
        obtain ⟨t, ht, hc⟩ := exec_effect i s
        exact ⟨t, (step_of_instr hr hf hd).trans ht, .instr hr w hf i hd t ht hc⟩
      | invalid op => exact ⟨_, step_of_invalid hr hf hd, .invalid hr w hf op hd⟩
  · have hr : s.running = false := by simpa using hr
    exact ⟨s, step_of_not_running hr, .still hr⟩

theorem step_cases {s t : State} (h : step s = .next t) : StepEffect s t := by
  obtain ⟨u, hu, hc⟩ := step_effect s
  rw [h] at hu
  cases hu
  exact hc

end Sys2Proof.Machine
end

