-- ==== Sys2Proof/Laws/PerInstr.lean ====
section
/-! SUPPORT. The family OpcodeField: the word the encoder makes for an instruction carries the instruction's
opcode in its high byte, and the row of the opcode map with its mnemonic and form has the same high byte
(`30_encoding.md` R51, R58). -/

namespace Sys2Proof.Laws.OpcodeField

def Statement (i : Instr) : Prop :=
  opcodeOf (encode i) = i.opcode ∧
    ∃ row ∈ opcodeMap, row.mnemonic = i.mnemonic ∧ row.form = i.form ∧ (row.pattern.toNat = i.opcode.toNat * 256)

theorem mov (rt rs : RegIndex) : Statement (.mov rt rs) :=
  ⟨opcodeOf_encodeR _ _ _, ⟨"mov", .r, 0x0000, 0xFF00⟩, by simp [opcodeMap], rfl, rfl, by simp [Instr.opcode]⟩

theorem add (rt rs : RegIndex) : Statement (.add rt rs) :=
  ⟨opcodeOf_encodeR _ _ _, ⟨"add", .r, 0x0100, 0xFF00⟩, by simp [opcodeMap], rfl, rfl, by simp [Instr.opcode]⟩

theorem sub (rt rs : RegIndex) : Statement (.sub rt rs) :=
  ⟨opcodeOf_encodeR _ _ _, ⟨"sub", .r, 0x0200, 0xFF00⟩, by simp [opcodeMap], rfl, rfl, by simp [Instr.opcode]⟩

theorem mul (rt rs : RegIndex) : Statement (.mul rt rs) :=
  ⟨opcodeOf_encodeR _ _ _, ⟨"mul", .r, 0x0300, 0xFF00⟩, by simp [opcodeMap], rfl, rfl, by simp [Instr.opcode]⟩

theorem div (rt rs : RegIndex) : Statement (.div rt rs) :=
  ⟨opcodeOf_encodeR _ _ _, ⟨"div", .r, 0x0400, 0xFF00⟩, by simp [opcodeMap], rfl, rfl, by simp [Instr.opcode]⟩

theorem load (addr : Addr) : Statement (.load addr) :=
  ⟨opcodeOf_encodeA _ _, ⟨"load", .m, 0x0500, 0xFF00⟩, by simp [opcodeMap], rfl, rfl, by simp [Instr.opcode]⟩

theorem store (addr : Addr) : Statement (.store addr) :=
  ⟨opcodeOf_encodeA _ _, ⟨"store", .m, 0x0600, 0xFF00⟩, by simp [opcodeMap], rfl, rfl, by simp [Instr.opcode]⟩

theorem jnz (addr : Addr) : Statement (.jnz addr) :=
  ⟨opcodeOf_encodeA _ _, ⟨"jnz", .j, 0x0700, 0xFF00⟩, by simp [opcodeMap], rfl, rfl, by simp [Instr.opcode]⟩

theorem j (addr : Addr) : Statement (.j addr) :=
  ⟨opcodeOf_encodeA _ _, ⟨"j", .j, 0x0800, 0xFF00⟩, by simp [opcodeMap], rfl, rfl, by simp [Instr.opcode]⟩

theorem ret : Statement .ret :=
  ⟨opcodeOf_encodeA _ _, ⟨"ret", .e, 0x0900, 0xFF00⟩, by simp [opcodeMap], rfl, rfl, by simp [Instr.opcode]⟩

end Sys2Proof.Laws.OpcodeField
end

