-- ==== Sys2Proof/Tests/Slice0.lean ====
section
/-! SUPPORT. The model's own tests: ill-formed terms, a word of every row written out from the spec's
encoding, one step of every instruction on the vectors of `95_test_vectors.md` section 2, and a witness for
the hypotheses of every statement that has some. Every expected value is the spec's. -/

namespace Sys2Proof.Tests

open Sys2Proof.Machine Sys2Proof.Statements

/-- A Running state: the given memory, registers and `pc`, everything else as after reset. -/
def mk (memWords : Nat) (cells : List Cell) (regs : List (RegIndex × Word)) (pc : Addr) : State :=
  regs.foldl (fun s r => s.setReg r.1 r.2) { State.resetWith memWords with mem := ⟨memWords, cells⟩, pc := pc }

/-- The word `w` at address 0 of a 64-word machine, and some registers. -/
def at0 (w : Word) (regs : List (RegIndex × Word)) : State := mk 64 [(0, w)] regs 0

/-- One step answers a next state that meets the check. -/
def after (s : State) (check : State → Bool) : Bool :=
  match step s with
  | .next t => check t
  | .fault _ => false
  | .refused _ => false

/-! ## WellFormed: an ill-formed term for each check, refused -/

theorem test_memWordsOk_refuses_zero : memWordsOk 0 = false := by decide
theorem test_memWordsOk_refuses_257 : memWordsOk 257 = false := by decide
theorem test_memWordsOk_accepts_bounds : memWordsOk 1 = true ∧ memWordsOk 256 = true := by decide
theorem test_imageOk_refuses_short_image : imageOk 2 [0x0900] = false := by decide
theorem test_imageOk_accepts : imageOk 2 [0x0900, 0] = true := by decide
theorem test_dataAddressOk_refuses_load_64 : (Instr.load 64).dataAddressOk 64 = false := by decide
theorem test_dataAddressOk_refuses_store_255 : (Instr.store 255).dataAddressOk 64 = false := by decide
theorem test_dataAddressOk_accepts : (Instr.load 63).dataAddressOk 64 = true ∧ (Instr.j 255).dataAddressOk 64 = true := by decide
theorem test_wf_refuses_unsorted : (⟨64, [(2, 1), (1, 1)]⟩ : Memory).wf = false := by decide
theorem test_wf_refuses_repeat : (⟨64, [(1, 1), (1, 2)]⟩ : Memory).wf = false := by decide
theorem test_wf_refuses_listed_zero : (⟨64, [(1, 0)]⟩ : Memory).wf = false := by decide
theorem test_wf_refuses_beyond : (⟨64, [(64, 1)]⟩ : Memory).wf = false := by decide

/-! ## Decoding: one word of every row, bit by bit from R58 (opcode, then `tttt ssss` or `aaaaaaaa`) -/

theorem test_decode_mov : decode 0b0000000000010000 = .instr (.mov 1 0) := by decide
theorem test_decode_add : decode 0b0000000100100011 = .instr (.add 2 3) := by decide
theorem test_decode_sub : decode 0b0000001000010000 = .instr (.sub 1 0) := by decide
theorem test_decode_mul : decode 0b0000001110100101 = .instr (.mul 10 5) := by decide
theorem test_decode_div : decode 0b0000010011110000 = .instr (.div 15 0) := by decide
theorem test_decode_load : decode 0b0000010100100001 = .instr (.load 33) := by decide
theorem test_decode_store : decode 0b0000011011111111 = .instr (.store 255) := by decide
theorem test_decode_jnz : decode 0b0000011100000010 = .instr (.jnz 2) := by decide
theorem test_decode_j : decode 0b0000100001000000 = .instr (.j 64) := by decide
theorem test_decode_ret : decode 0b0000100100000000 = .instr .ret := by decide
theorem test_decode_ret_low_bits : decode 0b0000100110100101 = .instr .ret := by decide
theorem test_decode_invalid : decode 0b0001001110111010 = .invalid 0x13 := by decide

/-- The words an assembler would write for the spec's listings (`95_test_vectors.md` P1, P4). -/
theorem test_encode : encode (.sub 1 0) = 0x0210 ∧ encode (.mul 3 1) = 0x0331 ∧ encode (.load 33) = 0x0521 ∧
    encode (.store 32) = 0x0620 ∧ encode (.jnz 2) = 0x0702 ∧ encode (.j 15) = 0x080F ∧ encode .ret = 0x0900 := by
  decide

/-! ## One step of each instruction -/

theorem test_mov : after (at0 0x0010 [(0, 100), (1, 7)]) (fun t => t.reg 1 == 100 && t.reg 0 == 100 && t.pc == 1) = true := by decide
theorem test_mov_r15 : after (at0 0x00F0 [(0, 65535)]) (fun t => t.reg 15 == 65535 && t.cycles == 1) = true := by decide
theorem test_add_wraps : after (at0 0x0101 [(0, 65535), (1, 65535)]) (fun t => t.reg 0 == 65534 && t.reg 1 == 65535) = true := by decide
theorem test_add_same_register : after (at0 0x0122 [(2, 21)]) (fun t => t.reg 2 == 42) = true := by decide
theorem test_sub_order : after (at0 0x0210 [(1, 100), (0, 1)]) (fun t => t.reg 1 == 99 && t.reg 0 == 1) = true := by decide
theorem test_sub_wraps : after (at0 0x0201 [(0, 3), (1, 5)]) (fun t => t.reg 0 == 65534) = true := by decide
theorem test_mul_low_half : after (at0 0x0311 [(1, 300)]) (fun t => t.reg 1 == 24464) = true := by decide
theorem test_mul_largest : after (at0 0x0312 [(1, 65535), (2, 65535)]) (fun t => t.reg 1 == 1) = true := by decide
theorem test_div : after (at0 0x0402 [(0, 24464), (2, 7)]) (fun t => t.reg 0 == 3494 && t.pc == 1) = true := by decide
theorem test_div_by_zero : after (at0 0x0402 [(0, 9)]) (fun t =>
    t.fault == some (.divisionByZero 0) && t.reg 0 == 9 && t.pc == 0 && t.cycles == 0 && !t.halt) = true := by decide
theorem test_load_last_word : after (mk 64 [(0, 0x053F), (63, 42)] [] 0) (fun t => t.reg 0 == 42) = true := by decide
theorem test_load_beyond : after (at0 0x0540 [(0, 9)]) (fun t =>
    t.fault == some (.dataAddressOutOfRange 64) && t.reg 0 == 9 && t.pc == 0 && t.cycles == 0) = true := by decide
theorem test_store : after (at0 0x0620 [(0, 5050)]) (fun t => t.mem == ⟨64, [(0, 0x0620), (32, 5050)]⟩ && t.pc == 1) = true := by decide
theorem test_store_zero_unlists : after (mk 64 [(0, 0x0620), (32, 7)] [] 0) (fun t => t.mem == ⟨64, [(0, 0x0620)]⟩) = true := by decide
theorem test_jnz_no_sign_test : after (mk 64 [(9, 0x0702)] [(0, 32768)] 9) (fun t => t.pc == 2 && t.reg 0 == 32768) = true := by decide
theorem test_jnz_not_taken : after (mk 64 [(9, 0x0702)] [] 9) (fun t => t.pc == 10 && t.cycles == 1) = true := by decide
theorem test_j_beyond_memory : after (at0 0x0840 []) (fun t => t.pc == 64 && t.fault.isNone && t.cycles == 1) = true := by decide
theorem test_ret : after { mk 64 [(15, 0x0900)] [] 15 with cycles := 803 } (fun t =>
    t.halt && t.pc == 16 && t.cycles == 804 && t.diag.isNone) = true := by decide
theorem test_invalid : after { mk 64 [(3, 0x0F37)] [] 3 with cycles := 3 } (fun t =>
    t.halt && t.diag == some (.invalidOpcode 0x0F) && t.pc == 4 && t.cycles == 4) = true := by decide
theorem test_fetch_beyond : after (mk 64 [] [] 64) (fun t =>
    t.fault == some (.fetchAddressOutOfRange 64) && t.pc == 64 && t.cycles == 0) = true := by decide
theorem test_pc_wraps_with_256_words : after (mk 256 [(255, 0x0010)] [(0, 7)] 255) (fun t => t.pc == 0 && t.reg 1 == 7) = true := by decide
theorem test_load_255_with_256_words : after (mk 256 [(0, 0x05FF), (255, 3)] [] 0) (fun t => t.reg 0 == 3) = true := by decide
theorem test_reset_memory_is_mov_r0_r0 : after State.reset (fun t => t == { State.reset with pc := 1, cycles := 1 }) = true := by decide
theorem test_halted_stands_still : after { at0 0x0521 [] with halt := true } (fun t => t == { at0 0x0521 [] with halt := true }) = true := by decide

/-! ## The host's two entry points -/

theorem test_decodeTableWord : decodeTableWord 16 0x0400 = some (.div 0 0) ∧ decodeTableWord 16 0x0A00 = none := by decide
theorem test_withFetchWord : after (State.reset.withFetchWord 16 0x0702) (fun t => t.pc == 1 && t.fault.isNone) = true := by decide
theorem test_loader : (State.loaded? 64 [0x0521, 0x0900] [0, 100, 1]).map (·.mem) =
    some ⟨64, [(0, 0x0521), (1, 0x0900), (33, 100), (34, 1)]⟩ := by decide

/-! ## Witnesses: concrete states and operands that meet the hypotheses of a statement, all together -/

/-- Each clause by opcode, at both ends of its words: opcode 8 and 9 for the two clauses, 9 as the last word
with an instruction. -/
theorem witness_DecodeEncodeRoundTrip :
    (decode 0x0000 = .instr (.mov 0 0) ∧ (0x0000 : Word).toNat / 256 ≤ 8) ∧
    (decode 0x08FF = .instr (.j 255) ∧ (0x08FF : Word).toNat / 256 ≤ 8) ∧
    (decode 0x0900 = .instr .ret ∧ (0x0900 : Word).toNat / 256 = 9) ∧
    (decode 0x09FF = .instr .ret ∧ (0x09FF : Word).toNat / 256 = 9 ∧ (0x09FF : Word).toNat / 256 ≤ 9) := by decide

/-- The eleven clauses of the decoder exclude each other by the opcode; a word for each, and both ends of the
last. -/
theorem witness_DecoderFollowsOpcodeAndFields :
    (0x00FF : Word).toNat / 256 = 0 ∧ (0x01FF : Word).toNat / 256 = 1 ∧ (0x02FF : Word).toNat / 256 = 2 ∧
    (0x03FF : Word).toNat / 256 = 3 ∧ (0x04FF : Word).toNat / 256 = 4 ∧ (0x05FF : Word).toNat / 256 = 5 ∧
    (0x06FF : Word).toNat / 256 = 6 ∧ (0x07FF : Word).toNat / 256 = 7 ∧ (0x08FF : Word).toNat / 256 = 8 ∧
    (0x09FF : Word).toNat / 256 = 9 ∧ 0x0A ≤ (0x0A00 : Word).toNat / 256 ∧ 0x0A ≤ (0xFFFF : Word).toNat / 256 := by
  decide

theorem witness_OpcodeMapIsUnambiguous :
    decode 0x09FF = .instr .ret ∧ decode 0x0A00 = .invalid 0x0A ∧ decode 0xFFFF = .invalid 0xFF := by decide

theorem witness_DivIsFloorQuotient : (at0 0x0402 [(0, 65535), (2, 1)]).reg 2 ≠ 0 := by decide

theorem witness_DivisionByZeroFaults : (at0 0x0402 [(0, 9)]).reg 2 = 0 ∧ (at0 0x0455 []).reg 5 = 0 := by decide

/-- The first and the last address with a cell. -/
theorem witness_LoadReadsMemoryIntoRegisterZero :
    (0 : Addr).toNat < State.reset.mem.size ∧ (63 : Addr).toNat < State.reset.mem.size := by decide

theorem witness_StoreWritesRegisterZeroToMemory :
    (0 : Addr).toNat < (at0 0x0600 [(0, 0x0900)]).mem.size ∧ (63 : Addr).toNat < (at0 0x063F [(0, 1)]).mem.size ∧
      62 ≠ effectiveAddress 63 := by decide

/-- The first and the last address without a cell. -/
theorem witness_DataAddressBeyondMemoryFaults :
    State.reset.mem.size ≤ (64 : Addr).toNat ∧ State.reset.mem.size ≤ (255 : Addr).toNat := by decide

theorem witness_MemoryWriteReplacesOneCell :
    63 < State.reset.mem.size ∧ 62 ≠ 63 ∧ State.reset.mem.size ≤ 64 := by decide

/-- A history with a word written twice, read at that word, at a word never written, and beyond memory. -/
theorem witness_MemoryReadReturnsLatestWrite :
    applyWrites (State.resetWith 64).mem [(63, 5), (1, 2), (63, 7)] = some ⟨64, [(1, 2), (63, 7)]⟩ ∧
    (63 < 64 ∧ lastWritten 63 0 [(63, 5), (1, 2), (63, 7)] = 7) ∧
    (0 < 64 ∧ lastWritten 0 0 [(63, 5), (1, 2), (63, 7)] = 0) ∧ 64 ≤ 64 ∧
    (∀ p ∈ [((63 : Nat), (5 : Word)), (1, 2), (63, 7)], p.1 < 64) := by decide

theorem witness_MemoryReadReturnsLatestWrite_load :
    ∃ t, exec (.load 63) State.reset = .next t := ⟨_, rfl⟩

theorem witness_CanonicalMemoriesWithEqualReadsAreEqual :
    (⟨64, [(0, 1), (63, 2)]⟩ : Memory).wf = true ∧
      ∀ a, (⟨64, [(0, 1), (63, 2)]⟩ : Memory).read? a = (⟨64, [(0, 1), (63, 2)]⟩ : Memory).read? a :=
  ⟨by decide, fun _ => rfl⟩

/-- Three states: a store to the next address of a word that is an instruction, of an Invalid word, and a store
to its own address. -/
theorem witness_StoreIsSeenByTheNextFetch :
    (∃ t, (at0 0x0601 [(0, 0x0900)]).running = true ∧ (at0 0x0601 [(0, 0x0900)]).fetch = some 0x0601 ∧
      decode 0x0601 = .instr (.store 1) ∧ (1 : Addr).toNat < (at0 0x0601 [(0, 0x0900)]).mem.size ∧
      step (at0 0x0601 [(0, 0x0900)]) = .next t ∧ (1 : Addr) = t.pc ∧
      decode ((at0 0x0601 [(0, 0x0900)]).reg 0) = .instr .ret) ∧
    (∃ t, (at0 0x0601 [(0, 0x0F00)]).running = true ∧ (at0 0x0601 [(0, 0x0F00)]).fetch = some 0x0601 ∧
      step (at0 0x0601 [(0, 0x0F00)]) = .next t ∧ (1 : Addr) = t.pc ∧
      decode ((at0 0x0601 [(0, 0x0F00)]).reg 0) = .invalid 0x0F) ∧
    (∃ t, step (at0 0x0600 [(0, 0x0900)]) = .next t ∧ decode 0x0600 = .instr (.store 0) ∧
      (at0 0x0600 [(0, 0x0900)]).fetch = some 0x0600 ∧ (0 : Addr) ≠ t.pc) :=
  ⟨⟨_, by decide, by decide, by decide, by decide, rfl, by decide, by decide⟩,
   ⟨_, by decide, by decide, rfl, by decide, by decide⟩,
   ⟨_, rfl, by decide, by decide, by decide⟩⟩

theorem witness_JnzBranchesOnRegisterZero :
    (at0 0x0702 [(0, 1)]).reg 0 ≠ 0 ∧ (at0 0x0702 [(0, 65535)]).reg 0 ≠ 0 ∧ (at0 0x0702 []).reg 0 = 0 := by decide

theorem witness_InvalidWordHaltsWithDiagnostic :
    (at0 0x0A00 []).running = true ∧ (at0 0x0A00 []).fetch = some 0x0A00 ∧ 0x0A ≤ (0x0A00 : Word).toNat / 256 ∧
    (at0 0xFFFF []).fetch = some 0xFFFF ∧ 0x0A ≤ (0xFFFF : Word).toNat / 256 := by decide

theorem witness_HaltIsSetByExactlyTwoEvents :
    (∃ t, step (at0 0x0900 []) = .next t ∧ t.halt = true) ∧
    (∃ t, step (at0 0x0F00 []) = .next t ∧ t.halt = true) ∧
    (∃ t, step State.reset = .next t ∧ t.halt = false) ∧
    (∃ s : State, s.halt = true ∧ s.report?.isSome = true) ∧
    (∃ t, State.reset.hostWrite? 63 1 = some t) :=
  ⟨⟨_, rfl, rfl⟩, ⟨_, rfl, rfl⟩, ⟨_, rfl, rfl⟩, ⟨{ State.reset with halt := true }, by decide, by decide⟩, ⟨_, rfl⟩⟩

/-- A Running state that halts, one that faults, and an ended state. -/
theorem witness_ConditionFollowsHaltAndFault :
    State.Inv (at0 0x0412 []) ∧ (at0 0x0900 []).condition = .running ∧ (∃ t, step (at0 0x0900 []) = .next t) ∧
    (at0 0x0412 []).condition = .running ∧ (∃ t, step (at0 0x0412 []) = .next t) ∧
    (State.reset.raise (.divisionByZero 0)).condition ≠ .running ∧
    (∃ t, step (State.reset.raise (.divisionByZero 0)) = .next t) :=
  ⟨⟨by decide, by decide, by decide, trivial, fun h => absurd h (by decide)⟩, by decide, ⟨_, rfl⟩, by decide,
   ⟨_, rfl⟩, by decide, ⟨_, rfl⟩⟩

/-- The three ends of a run. -/
theorem witness_EndOfRunTellsItsCause :
    (∃ t, State.Inv (at0 0x0900 []) ∧ (at0 0x0900 []).running = true ∧ step (at0 0x0900 []) = .next t ∧
      (at0 0x0900 []).fetch = some 0x0900 ∧ decode 0x0900 = .instr .ret) ∧
    (∃ t, State.Inv (at0 0x0F00 []) ∧ (at0 0x0F00 []).running = true ∧ step (at0 0x0F00 []) = .next t ∧
      (at0 0x0F00 []).fetch = some 0x0F00 ∧ decode 0x0F00 = .invalid 0x0F) ∧
    (∃ t, State.Inv (at0 0x0412 []) ∧ (at0 0x0412 []).running = true ∧ step (at0 0x0412 []) = .next t ∧
      (causedFault (at0 0x0412 [])).isSome = true) :=
  ⟨⟨_, ⟨by decide, by decide, by decide, trivial, fun h => absurd h (by decide)⟩, by decide, rfl, by decide,
    by decide⟩,
   ⟨_, ⟨by decide, by decide, by decide, trivial, fun h => absurd h (by decide)⟩, by decide, rfl, by decide,
    by decide⟩,
   ⟨_, ⟨by decide, by decide, by decide, trivial, fun h => absurd h (by decide)⟩, by decide, rfl, by decide⟩⟩

theorem witness_StepRunsDecodedInstruction :
    (at0 0x0412 []).running = true ∧ (at0 0x0412 []).mem.read? (at0 0x0412 []).pc.toNat = some 0x0412 ∧
      decode 0x0412 = .instr (.div 1 2) := by decide

/-- The first and the last `pc` without a cell. -/
theorem witness_FetchBeyondMemoryFaults :
    (mk 64 [] [] 64).running = true ∧ (mk 64 [] [] 64).mem.size ≤ (mk 64 [] [] 64).pc.toNat ∧
    (mk 64 [] [] 255).running = true ∧ (mk 64 [] [] 255).mem.size ≤ (mk 64 [] [] 255).pc.toNat := by decide

theorem witness_EndedRunNeverChanges :
    ({ State.reset with halt := true } : State).halt = true ∧
      (State.reset.raise (.divisionByZero 0)).fault ≠ none := by decide

/-- A completed cycle, a faulting one, and a run that is still going. -/
theorem witness_CycleCounterCountsCompletedCycles :
    (∃ t, State.reset.running = true ∧ step State.reset = .next t ∧ t.fault = none) ∧
    (∃ t, (at0 0x0412 []).running = true ∧ step (at0 0x0412 []) = .next t ∧ t.fault ≠ none) ∧
    (∃ t, Host.Core.run Sys2Proof.core 2 State.reset = .next t ∧ t.running = true) :=
  ⟨⟨_, by decide, rfl, by decide⟩, ⟨_, by decide, rfl, by decide⟩, ⟨_, rfl, by decide⟩⟩

/-- Two states that differ in a register `mov r1,r0` does not read; a completed and a faulting cycle; an
Invalid word; a host write. -/
theorem witness_RegisterAccessFollowsTable :
    (∃ t t', at0 0x0010 [(0, 5), (2, 9)] = { at0 0x0010 [(0, 5)] with x := (at0 0x0010 [(0, 5), (2, 9)]).x } ∧
      (∀ r ∈ readsOf (.mov 1 0), (at0 0x0010 [(0, 5), (2, 9)]).reg r = (at0 0x0010 [(0, 5)]).reg r) ∧
      exec (.mov 1 0) (at0 0x0010 [(0, 5)]) = .next t ∧
      exec (.mov 1 0) (at0 0x0010 [(0, 5), (2, 9)]) = .next t' ∧ writesOf (.mov 1 0) = some 1 ∧
      t.cycles = (at0 0x0010 [(0, 5)]).cycles + 1) ∧
    (∃ t, exec (.div 1 2) State.reset = .next t ∧ t.cycles = State.reset.cycles ∧ writesOf (.div 1 2) ≠ some 0) ∧
    (∃ t, execInvalid 0x0A State.reset = .next t) ∧ (∃ t, State.reset.hostWrite? 0 1 = some t) :=
  ⟨⟨_, _, by decide, by decide, rfl, rfl, rfl, by decide⟩, ⟨_, rfl, by decide, by decide⟩, ⟨_, rfl⟩, ⟨_, rfl⟩⟩

theorem witness_OnlyStoreChangesMemory :
    (∃ t, step (at0 0x0620 [(0, 1)]) = .next t) ∧ (∃ t, step State.reset = .next t) := ⟨⟨_, rfl⟩, ⟨_, rfl⟩⟩

/-- Each cause of a fault, and a cycle with none. -/
theorem witness_FaultsExactlyAsTheEventTableSays :
    (∃ t, (mk 64 [] [] 64).running = true ∧ step (mk 64 [] [] 64) = .next t ∧
      causedFault (mk 64 [] [] 64) = some (.fetchAddressOutOfRange 64)) ∧
    (∃ t, step (at0 0x0412 []) = .next t ∧ causedFault (at0 0x0412 []) = some (.divisionByZero 0)) ∧
    (∃ t, step (at0 0x0540 []) = .next t ∧ causedFault (at0 0x0540 []) = some (.dataAddressOutOfRange 64)) ∧
    (∃ t, step (at0 0x06FF []) = .next t ∧ causedFault (at0 0x06FF []) = some (.dataAddressOutOfRange 255)) ∧
    (∃ t, step State.reset = .next t ∧ causedFault State.reset = none) :=
  ⟨⟨_, by decide, rfl, by decide⟩, ⟨_, rfl, by decide⟩, ⟨_, rfl, by decide⟩, ⟨_, rfl, by decide⟩,
   ⟨_, rfl, by decide⟩⟩

theorem witness_FullMemoryRaisesNoAddressFault :
    ∃ t, (mk 256 [(255, 0x05FF)] [] 255).mem.size = 256 ∧ (mk 256 [(255, 0x05FF)] [] 255).running = true ∧
      step (mk 256 [(255, 0x05FF)] [] 255) = .next t :=
  ⟨_, by decide, by decide, rfl⟩

theorem witness_CycleCounterIsUnobservable :
    ∃ t, Host.Core.run Sys2Proof.core 2 (at0 0x0101 [(0, 1), (1, 2)]) = .next t := ⟨_, rfl⟩

theorem witness_PcReachesNoRegisterOrMemory :
    ∃ t t', exec (.div 1 2) State.reset = .next t ∧ exec (.div 1 2) { State.reset with pc := 9 } = .next t' :=
  ⟨_, _, rfl, rfl⟩

theorem witness_ResetLeavesSpecValues :
    (63 < 64 ∧ (State.resetWith 64).mem.read? 63 = some 0) ∧ (¬ 64 < 64 ∧ (State.resetWith 64).mem.read? 64 = none) := by
  decide

theorem witness_ResetMeetsInvariant : (1 ≤ 1 ∧ 1 ≤ 256) ∧ (1 ≤ 256 ∧ 256 ≤ 256) := by decide

theorem witness_StepKeepsInvariant : ∃ s t, State.Inv s ∧ step s = .next t :=
  ⟨at0 0x0412 [], _,
   ⟨by decide, by decide, by decide, trivial, fun h => absurd h (by decide)⟩, rfl⟩

/-- The smallest memory and this hardware's. -/
theorem witness_LaunchPlacesImage :
    (1 ≤ 1 ∧ [(0x0900 : Word)].length = 1) ∧ (1 ≤ 64 ∧ 64 ≤ 256 ∧ (List.replicate 64 (0x0900 : Word)).length = 64) := by
  decide

/-- A program and values that fill both regions of 64 words; both zero ranges are met by a shorter load. -/
theorem witness_LoaderPlacesProgramAndValues :
    (64 ≤ 256 ∧ (List.replicate 32 (1 : Word)).length ≤ 32 ∧ (List.replicate 32 (1 : Word)).length ≤ 64 ∧
      32 + (List.replicate 32 (1 : Word)).length ≤ 64) ∧
    (31 < (List.replicate 32 (1 : Word)).length ∧ 31 < (List.replicate 32 (1 : Word)).length) ∧
    ([(1 : Word)].length ≤ 1 ∧ 1 < 32 ∧ 32 + [(1 : Word)].length ≤ 33 ∧ 33 < 64) := by decide

theorem witness_HostActsOnlyOutsideTheRun :
    State.reset.running = true ∧ (State.reset.raise (.divisionByZero 0)).running = false ∧
      (State.reset.hostWrite? 63 1).isSome = true ∧ 62 ≠ 63 ∧
      State.reset.beforeFirstCycle = true ∧ 0 < State.reset.mem.size ∧ 63 < State.reset.mem.size := by decide

/-- Each of the five codes. -/
theorem witness_EventCodeNamesTheEvent :
    State.reset.running = true ∧ State.reset.diag = none ∧
    after State.reset (fun t => t.eventCode == 0) = true ∧ after (at0 0x0F00 []) (fun t => t.eventCode == 1) = true ∧
    after (at0 0x0412 []) (fun t => t.eventCode == 2) = true ∧
    after (mk 64 [] [] 64) (fun t => t.eventCode == 3) = true ∧
    after (at0 0x0540 []) (fun t => t.eventCode == 4) = true := by decide

theorem witness_WithFetchWordIsFetchedNext :
    1 ≤ State.reset.mem.size ∧ State.reset.running = true ∧ State.reset.pc.toNat < State.reset.mem.size ∧
      63 ≠ State.reset.pc.toNat := by decide

end Sys2Proof.Tests
end

