-- ==== Sys2Proof/Proofs/HaltFlag.lean ====
section
/-! SUPPORT. The halt flag (`10_state.md` R16): what one instruction, one step, the host's write and the
host's report do with it, and from these the statement O22. -/

namespace Sys2Proof.Proofs

open Sys2Proof.Machine Sys2Proof.Statements

/-- No instruction clears the flag, and of the ten only `ret` sets it (R16, R120). -/
theorem exec_halt_iff {i : Instr} {s t : State} (h : exec i s = .next t) :
    t.halt = true ↔ s.halt = true ∨ i = .ret := by
  cases exec_cases h with
  | register rd v hd =>
    have hi : i ≠ .ret := by rintro rfl; cases hd
    simp [hi]
  | memory addr m hi _ => simp [hi]
  | jump addr hi =>
    have hi : i ≠ .ret := by rintro rfl; simp at hi
    simp [hi]
  | fallThrough addr hi _ => simp [hi]
  | halt hi => simp [hi]
  | division rt rs hi _ => simp [hi]
  | address addr hi _ =>
    have hi : i ≠ .ret := by rintro rfl; simp at hi
    simp [hi]

/-- The two events of R16: a Running machine stands at a `ret` or at an Invalid word. -/
theorem step_halt_iff {s t : State} (h : step s = .next t) :
    t.halt = true ↔ s.halt = true ∨ (s.running = true ∧ ∃ w, s.fetch = some w ∧
      (decode w = .instr .ret ∨ ∃ op, decode w = .invalid op)) := by
  cases step_cases h with
  | still hr => simp [hr]
  | fetchFault _ hf => simp [hf]
  | instr hr w hf i hd _ he _ => simp [exec_halt_iff he, hr, hf, hd]
  | invalid hr w hf op hd => simp [hr, hf, hd]

theorem running_eq_false_of_halt {s : State} (h : s.halt = true) : s.running = false := by
  simp [State.running, h]

/-- The host's write is a memory write and nothing else (R155). -/
theorem hostWrite?_cases {s t : State} {a : Nat} {v : Word} (h : s.hostWrite? a v = some t) :
    s.beforeFirstCycle = true ∧ ∃ m, s.mem.write? a v = some m ∧ t = s.setMem m := by
  simp only [State.hostWrite?, Option.ite_none_right_eq_some, Option.map_eq_some_iff] at h
  obtain ⟨hb, m, hm, rfl⟩ := h
  exact ⟨hb, m, hm, rfl⟩

/-- There is a report only after the run has ended, and it shows the status state as it stands (R156). -/
theorem report?_cases {s : State} {r : Report} (h : s.report? = some r) :
    s.running = false ∧ r.cycles = s.cycles ∧ r.result = s.mem.read? Config.resultAddr ∧
      r.halt = s.halt ∧ r.diag = s.diag ∧ r.fault = s.fault := by
  simp only [State.report?, Option.ite_none_left_eq_some, Option.some.injEq, Bool.not_eq_true] at h
  obtain ⟨hr, rfl⟩ := h
  exact ⟨hr, rfl, rfl, rfl, rfl, rfl⟩

/-- Settles O22: the cases of a step decide the flag, and a halted machine is not Running, so it stands
still. -/
theorem haltIsSetByExactlyTwoEvents : Obligations.HaltIsSetByExactlyTwoEvents := by
  refine ⟨rfl, fun s t => step_halt_iff, fun s h => step_of_not_running (running_eq_false_of_halt h), ?_, ?_⟩
  · intro s t a v h
    obtain ⟨-, m, -, rfl⟩ := hostWrite?_cases h
    exact State.setMem_halt s m
  · intro s r h
    obtain ⟨-, -, -, hhalt, -⟩ := report?_cases h
    exact hhalt

end Sys2Proof.Proofs
end

