-- ==== Sys2Proof/Proofs/MemoryHistory.lean ====
section
/-! SUPPORT. The memory array over time (`20_memory.md` R33, R34): what one write does, what a history of
writes leaves to be read, and that only a `store` touches memory; from these the statements O14 and O15. -/

namespace Sys2Proof.Proofs

open Sys2Proof.Machine Sys2Proof.Statements

theorem exists_write?_of_lt {m : Memory} {a : Nat} (v : Word) (h : a < m.size) :
    ∃ m', m.write? a v = some m' := ⟨_, Memory.write?_of_lt v h⟩

/-- A read after a write: the word written where it was written, the old one anywhere else. -/
theorem read?_of_write? {m m' : Memory} {a b : Nat} {u v : Word} (h : m.write? a v = some m')
    (hb : m.read? b = some u) : m'.read? b = some (if a = b then v else u) := by
  obtain ⟨-, -, hsame, hother, -⟩ := Memory.write?_cases h
  by_cases hab : a = b
  · rw [if_pos hab, ← hab, hsame]
  · rw [if_neg hab, hother b (Ne.symm hab), hb]

/-- Settles O14: the size decides whether there is a write, and `Memory.write?_cases` says what it does. -/
theorem memoryWriteReplacesOneCell : Obligations.MemoryWriteReplacesOneCell := by
  refine fun m a v => ⟨fun ha => ?_, Memory.write?_eq_none_iff.2⟩
  obtain ⟨m', hm'⟩ := exists_write?_of_lt v ha
  obtain ⟨-, hsize, hsame, hother, -⟩ := Memory.write?_cases hm'
  exact ⟨m', hm', hsame, hsize, hother⟩

/-! ## A history of writes -/

theorem applyWrites_cons {m m' : Memory} {p : Nat × Word} {ps : List (Nat × Word)} :
    applyWrites m (p :: ps) = some m' ↔ ∃ m₁, m.write? p.1 p.2 = some m₁ ∧ applyWrites m₁ ps = some m' :=
  Option.bind_eq_some_iff

theorem applyWrites_size {writes : List (Nat × Word)} {m m' : Memory}
    (h : applyWrites m writes = some m') : m'.size = m.size := by
  induction writes generalizing m with
  | nil => cases h; rfl
  | cons p ps ih =>
    obtain ⟨m₁, hp, hps⟩ := applyWrites_cons.1 h
    obtain ⟨-, hsize, -⟩ := Memory.write?_cases hp
    exact (ih hps).trans hsize

/-- From a cell that reads as `v`, a history leaves the value most recently written, or `v` (R33). -/
theorem applyWrites_read? {writes : List (Nat × Word)} {m m' : Memory} {a : Nat} {v : Word}
    (h : applyWrites m writes = some m') (hv : m.read? a = some v) :
    m'.read? a = some (lastWritten a v writes) := by
  induction writes generalizing m v with
  | nil => cases h; exact hv
  | cons p ps ih =>
    obtain ⟨m₁, hp, hps⟩ := applyWrites_cons.1 h
    exact ih hps (read?_of_write? hp hv)

theorem exists_applyWrites {writes : List (Nat × Word)} {m : Memory} (h : ∀ p ∈ writes, p.1 < m.size) :
    ∃ m', applyWrites m writes = some m' := by
  induction writes generalizing m with
  | nil => exact ⟨m, rfl⟩
  | cons p ps ih =>
    obtain ⟨hp, hps⟩ := List.forall_mem_cons.1 h
    obtain ⟨m₁, hm₁⟩ := exists_write?_of_lt p.2 hp
    obtain ⟨-, hsize, -⟩ := Memory.write?_cases hm₁
    obtain ⟨m', hm'⟩ := ih (m := m₁) fun q hq => hsize ▸ hps q hq
    exact ⟨m', applyWrites_cons.2 ⟨m₁, hm₁, hm'⟩⟩

/-! ## Reset and the instructions -/

@[simp] theorem resetWith_mem_size (n : Nat) : (State.resetWith n).mem.size = n := rfl

theorem resetWith_read?_of_lt {n a : Nat} (h : a < n) : (State.resetWith n).mem.read? a = some 0 :=
  Memory.read?_of_lt h

/-- Only a `store` touches memory (R34). -/
theorem exec_mem_of_not_store {i : Instr} {s t : State} (h : exec i s = .next t)
    (hi : ∀ addr, i ≠ .store addr) : t.mem = s.mem := by
  cases exec_cases h with
  | memory addr m hstore _ => exact absurd hstore (hi addr)
  | register rd v _ => exact writeBack_mem s rd v
  | jump addr _ => rfl
  | fallThrough addr _ _ => rfl
  | halt _ => rfl
  | division rt rs _ _ => rfl
  | address addr _ _ => rfl

/-- Settles O15: an induction over the history, from a reset memory in which every cell reads as 0. -/
theorem memoryReadReturnsLatestWrite : Obligations.MemoryReadReturnsLatestWrite := by
  refine ⟨fun n writes m a h => ⟨fun ha => ?_, fun ha => ?_⟩, fun n writes hw => exists_applyWrites hw, ?_⟩
  · exact applyWrites_read? h (resetWith_read?_of_lt ha)
  · have hsize : m.size = n := (applyWrites_size h).trans (resetWith_mem_size n)
    exact Memory.read?_eq_none_iff.2 (hsize.trans_le ha)
  · intro addr s t h
    exact exec_mem_of_not_store h (fun _ => Instr.noConfusion)

end Sys2Proof.Proofs
end

