-- ==== Sys2Proof/Proofs/Encoding.lean ====
section
/-! SUPPORT. Decoder and encoder against each other (`30_encoding.md` R56, R61): a word is put together again
from its opcode and the fields of its form; from this the statements O2 and O3. -/

namespace Sys2Proof.Proofs

/-! ## A word from its fields -/

/-- The three fields of the register form make up the whole word (R52). -/
theorem encodeR_fields {w : Word} {op : Opcode} (h : w.toNat / 256 = op.toNat) :
    encodeR op (rtOf w) (rsOf w) = w := by
  apply BitVec.eq_of_toNat_eq
  rw [encodeR_toNat, rtOf_val, rsOf_val]
  omega

/-- The two fields of the memory and jump forms make up the whole word (R53, R54). -/
theorem encodeA_fields {w : Word} {op : Opcode} (h : w.toNat / 256 = op.toNat) :
    encodeA op (addrOf w) = w := by
  apply BitVec.eq_of_toNat_eq
  rw [encodeA_toNat, addrOf_toNat]
  omega

/-! ## The opcode of what a word decodes to -/

theorem opcode_of_decode {w : Word} {i : Instr} (h : decode w = .instr i) :
    w.toNat / 256 = i.opcode.toNat := by
  obtain ⟨hop, hd⟩ | ⟨hop, hd⟩ | ⟨hop, hd⟩ | ⟨hop, hd⟩ | ⟨hop, hd⟩ | ⟨hop, hd⟩ | ⟨hop, hd⟩ | ⟨hop, hd⟩ |
    ⟨hop, hd⟩ | ⟨hop, hd⟩ | ⟨hop, hd⟩ := decode_cases w <;> cases hd.symm.trans h <;> exact hop

/-- The decoder answers Invalid for the opcodes beyond the table only (R59). -/
theorem le_opcode_of_decode_invalid {w : Word} {op : Opcode} (h : decode w = .invalid op) :
    10 ≤ w.toNat / 256 := by
  obtain ⟨-, hd⟩ | ⟨-, hd⟩ | ⟨-, hd⟩ | ⟨-, hd⟩ | ⟨-, hd⟩ | ⟨-, hd⟩ | ⟨-, hd⟩ | ⟨-, hd⟩ |
    ⟨-, hd⟩ | ⟨-, hd⟩ | ⟨hop, hd⟩ := decode_cases w <;> cases hd.symm.trans h
  exact hop

theorem opcode_eq_nine_iff {i : Instr} : i.opcode.toNat = 9 ↔ i = .ret := by
  cases i <;> simp [Instr.opcode]

/-! ## Decode after encode, and encode after decode -/

/-- Encoding loses nothing (R61): the encoded word has the row's opcode and gives its fields back. -/
theorem decode_encode (i : Instr) : decode (encode i) = .instr i := by
  cases i <;> simp [encode, decode]

/-- Decoding loses nothing either, but for the low byte of a `ret` (R61, D14). -/
theorem encode_of_decode {w : Word} {i : Instr} (h : decode w = .instr i) (hi : i ≠ .ret) : encode i = w := by
  have hop := opcode_of_decode h
  cases i
  case mov rt rs | add rt rs | sub rt rs | mul rt rs | div rt rs =>
    obtain ⟨rfl, rfl⟩ : rtOf w = rt ∧ rsOf w = rs := by
      simpa [decode, opcodeOf_toNat, hop, Instr.opcode] using h
    exact encodeR_fields hop
  case load addr | store addr | jnz addr | j addr =>
    obtain rfl : addrOf w = addr := by simpa [decode, opcodeOf_toNat, hop, Instr.opcode] using h
    exact encodeA_fields hop
  case ret => exact absurd rfl hi

/-- Settles O2: the opcode of the word tells `ret`, with its one canonical word, from the instructions that
`encode_of_decode` speaks of, and both from Invalid. -/
theorem decodeEncodeRoundTrip : Obligations.DecodeEncodeRoundTrip := by
  refine ⟨decode_encode, fun w i h => ?_, fun w hw => ?_⟩
  · have hret : w.toNat / 256 = 9 ↔ i = .ret := by rw [opcode_of_decode h, opcode_eq_nine_iff]
    refine ⟨fun h8 => encode_of_decode h fun hi => ?_, fun h9 => ?_⟩
    · have := hret.2 hi
      omega
    · rw [hret.1 h9]
      rfl
  · cases hd : decode w with
    | instr i => exact ⟨i, rfl⟩
    | invalid op =>
      have := le_opcode_of_decode_invalid hd
      omega

/-! ## Fields as numbers -/

theorem rtOf_eq_ofNat (w : Word) : rtOf w = Fin.ofNat 16 (w.toNat / 16) := Fin.ext (rtOf_val w)

theorem rsOf_eq_ofNat (w : Word) : rsOf w = Fin.ofNat 16 w.toNat := Fin.ext (rsOf_val w)

theorem addrOf_eq_ofNat (w : Word) : addrOf w = BitVec.ofNat 8 w.toNat :=
  BitVec.eq_of_toNat_eq (addrOf_toNat w)

theorem opcodeOf_eq_ofNat (w : Word) : opcodeOf w = BitVec.ofNat 8 (w.toNat / 256) := by
  rw [← opcodeOf_toNat, BitVec.ofNat_toNat, BitVec.setWidth_eq]

/-- Settles O3: each row of `decode_cases` has its own opcode, so it answers its own clause and empties the
other ten. -/
theorem decoderFollowsOpcodeAndFields : Obligations.DecoderFollowsOpcodeAndFields := by
  intro w
  simp only [← rtOf_eq_ofNat, ← rsOf_eq_ofNat, ← addrOf_eq_ofNat, ← opcodeOf_eq_ofNat]
  obtain ⟨hop, hd⟩ | ⟨hop, hd⟩ | ⟨hop, hd⟩ | ⟨hop, hd⟩ | ⟨hop, hd⟩ | ⟨hop, hd⟩ | ⟨hop, hd⟩ | ⟨hop, hd⟩ |
    ⟨hop, hd⟩ | ⟨hop, hd⟩ | ⟨hop, hd⟩ := decode_cases w
  iterate 10
    · simp [hop, hd]
  · simp only [hd, reduceCtorEq, imp_false, implies_true, and_true]
    omega

end Sys2Proof.Proofs
end

