-- ==== Sys2Proof/Proofs/RegisterForm.lean ====
section
/-! SUPPORT. The register form (`41_register_form.md`): the frame of a completed cycle that writes one
register, for every instruction that ends in one, then `mov` (R101); from these the statement O5. -/

namespace Sys2Proof.Proofs

open Sys2Proof.Machine Sys2Proof.Statements

/-- The frame that the register form (R100) and `load` (R111) share, whatever the value written. -/
theorem writeBack_writesOnlyRegister (s : State) (rd : RegIndex) (v : Word) :
    WritesOnlyRegister rd s (writeBack s rd v) := by
  have hregs : SameRegistersBut rd s (writeBack s rd v) := fun _ => writeBack_reg_other s v
  have hmem : SameMemory s (writeBack s rd v) := fun a => by rw [writeBack_mem]
  have hstatus : SameStatus s (writeBack s rd v) :=
    ⟨writeBack_halt s rd v, writeBack_fault s rd v, writeBack_diag s rd v⟩
  have hpc : Advanced s (writeBack s rd v) := by rw [Advanced, writeBack_pc, incPc_toNat]
  exact ⟨hregs, hmem, hstatus, hpc, writeBack_cycles s rd v⟩

theorem exec_mov (rt rs : RegIndex) (s : State) :
    exec (.mov rt rs) s = .next (writeBack s rt (s.reg rs)) := rfl

/-- The opcode of `mov` is 0, so the two register fields are the whole word (R52, R101). -/
theorem encode_mov_toNat (rt rs : RegIndex) : (encode (.mov rt rs)).toNat = rt.val * 16 + rs.val := by
  simp [encode, encodeR_toNat]

/-- Settles O5: a `mov` is the write of the old `x[rs]` to `x[rt]`, so the frame is that of any such cycle. -/
theorem movCopiesRegister : Obligations.MovCopiesRegister := fun rt rs s =>
  ⟨encode_mov_toNat rt rs, _, exec_mov rt rs s, writeBack_reg_same s rt (s.reg rs),
    writeBack_writesOnlyRegister s rt (s.reg rs)⟩

end Sys2Proof.Proofs
end

