-- ==== Sys2Proof/Proofs/JumpForm.lean ====
section
/-! SUPPORT. The jump form (`43_jump_form.md` R115 to R117): the frame of a completed cycle that does nothing
but move `pc`, taken or not; from it the statements O18 and O19. -/

namespace Sys2Proof.Proofs

open Sys2Proof.Machine Sys2Proof.Statements

/-- Completing a cycle touches `pc` and the counter only, whatever the transfer (R82, R115). -/
theorem complete_frame (s : State) (transfer : Option Addr) :
    SameRegisters s (s.complete transfer) ∧ SameMemory s (s.complete transfer) ∧
      SameStatus s (s.complete transfer) ∧ Counted s (s.complete transfer) := by
  have hregs : SameRegisters s (s.complete transfer) := State.reg_complete s transfer
  have hmem : SameMemory s (s.complete transfer) := fun a => by rw [State.complete_mem]
  have hstatus : SameStatus s (s.complete transfer) :=
    ⟨State.complete_halt s transfer, State.complete_fault s transfer, State.complete_diag s transfer⟩
  exact ⟨hregs, hmem, hstatus, State.complete_cycles s transfer⟩

/-- A cycle with no control transfer goes on to the next address (R73). -/
theorem complete_none_advanced (s : State) : Advanced s (s.complete none) := by
  rw [Advanced, State.complete_pc, nextPc_none, incPc_toNat]

theorem encode_jnz_toNat (addr : Addr) : (encode (.jnz addr)).toNat = 0x0700 + addr.toNat :=
  encodeA_toNat 0x07 addr

theorem encode_j_toNat (addr : Addr) : (encode (.j addr)).toNat = 0x0800 + addr.toNat :=
  encodeA_toNat 0x08 addr

theorem exec_j (addr : Addr) (s : State) : exec (.j addr) s = .next (s.complete (some addr)) := rfl

/-- Settles O18: register 0 decides which transfer completes the cycle, and the frame is that of either. -/
theorem jnzBranchesOnRegisterZero : Obligations.JnzBranchesOnRegisterZero := by
  refine fun addr s => ⟨encode_jnz_toNat addr, ?_⟩
  by_cases h : s.reg 0 = 0
  · exact ⟨_, execJnz_of_zero h, (absurd h ·), fun _ => complete_none_advanced s, complete_frame s none⟩
  · exact ⟨_, execJnz_of_ne h, fun _ => State.complete_pc s (some addr), (absurd · h),
      complete_frame s (some addr)⟩

/-- Settles O19: a `j` completes its cycle with the transfer to `addr`, whatever the state. -/
theorem jumpSetsPcToTarget : Obligations.JumpSetsPcToTarget := fun addr s =>
  ⟨encode_j_toNat addr, _, exec_j addr s, State.complete_pc s (some addr), complete_frame s (some addr)⟩

end Sys2Proof.Proofs
end

