-- ==== Sys2Proof/Proofs/CycleUpdate.lean ====
section
/-! SUPPORT. The cycle of an instruction in two parts: the update, computed from what the instruction reads, and
its application to the state. What a cycle depends on is then a fact about `updateOf`, and what it changes one
about `CycleUpdate.apply`; `exec_eq_apply` ties both to the model. The fault of a cycle comes from its update
(`60_exceptions.md` R130, R136); from this the statements O33 and O34. -/

namespace Sys2Proof.Proofs

open Sys2Proof.Machine Sys2Proof.Statements

/-- What the cycle of an instruction does to the state it started in (R79 to R82, R133). -/
inductive CycleUpdate where
  | writeReg (rd : RegIndex) (v : Word)
  | setMem (m : Memory)
  | transfer (target : Option Addr)
  | halt
  | fault (f : Fault)

def CycleUpdate.apply : CycleUpdate → State → State
  | .writeReg rd v, s => writeBack s rd v
  | .setMem m, s => (s.setMem m).complete none
  | .transfer target, s => s.complete target
  | .halt, s => s.setHalt.complete none
  | .fault f, s => s.raise f

/-- The update that an instruction computes from the state at the start of its cycle. -/
def updateOf (s : State) : Instr → CycleUpdate
  | .mov rt rs => .writeReg rt (s.reg rs)
  | .add rt rs => .writeReg rt (addWord (s.reg rt) (s.reg rs))
  | .sub rt rs => .writeReg rt (subWord (s.reg rt) (s.reg rs))
  | .mul rt rs => .writeReg rt (mulWord (s.reg rt) (s.reg rs))
  | .div rt rs =>
    match divWord (s.reg rt) (s.reg rs) with
    | some q => .writeReg rt q
    | none => .fault (.divisionByZero s.pc)
  | .load addr =>
    match s.mem.read? addr.toNat with
    | some w => .writeReg 0 w
    | none => .fault (.dataAddressOutOfRange addr)
  | .store addr =>
    match s.mem.write? addr.toNat (s.reg 0) with
    | some m => .setMem m
    | none => .fault (.dataAddressOutOfRange addr)
  | .jnz addr => .transfer (if s.reg 0 ≠ 0 then some addr else none)
  | .j addr => .transfer (some addr)
  | .ret => .halt

theorem exec_eq_apply (i : Instr) (s : State) : exec i s = .next ((updateOf s i).apply s) := by
  cases i with
  | mov | add | sub | mul | jnz | j | ret => rfl
  | div rt rs =>
    simp only [exec, execDiv, leftOperand, rightOperand, updateOf]
    cases divWord (s.reg rt) (s.reg rs) <;> rfl
  | load addr =>
    simp only [exec, execLoad, effectiveAddress, updateOf]
    cases s.mem.read? addr.toNat <;> rfl
  | store addr =>
    simp only [exec, execStore, effectiveAddress, accumulator, updateOf]
    cases s.mem.write? addr.toNat (s.reg 0) <;> rfl

theorem eq_apply_of_exec {i : Instr} {s t : State} (h : exec i s = .next t) : t = (updateOf s i).apply s := by
  rw [exec_eq_apply] at h
  cases h
  rfl

/-! ## The fault of a cycle -/

def CycleUpdate.fault? : CycleUpdate → Option Fault
  | .fault f => some f
  | _ => none

/-- An update with a fault records it and does nothing else (R133). -/
theorem CycleUpdate.apply_of_fault? {u : CycleUpdate} {f : Fault} (s : State) (h : u.fault? = some f) :
    u.apply s = s.raise f := by
  cases u <;> cases h
  rfl

/-- An update without a fault completes the cycle (R82). -/
theorem CycleUpdate.apply_completes {u : CycleUpdate} (s : State) (h : u.fault? = none) :
    (u.apply s).fault = s.fault ∧ (u.apply s).cycles = s.cycles + 1 := by
  cases u with
  | fault f => cases h
  | writeReg | setMem | transfer | halt => exact ⟨rfl, rfl⟩

/-- The event table (R130) names the fault of the instruction's update. -/
theorem causedFault_of_instr {s : State} {w : Word} {i : Instr} (hf : s.fetch = some w)
    (hd : decode w = .instr i) : causedFault s = (updateOf s i).fault? := by
  cases i with
  | mov | add | sub | mul | jnz | j | ret => simp only [causedFault, hf, hd]; rfl
  | div rt rs =>
    simp only [causedFault, hf, hd, updateOf]
    cases hq : divWord (s.reg rt) (s.reg rs) with
    | none => simp [divWord_eq_none_iff.1 hq, CycleUpdate.fault?]
    | some q =>
      obtain ⟨hne, -⟩ := divWord_toNat hq
      simpa [CycleUpdate.fault?] using hne
  | load addr =>
    simp only [causedFault, hf, hd, updateOf]
    rcases lt_or_ge addr.toNat s.mem.size with h | h
    · simp [Memory.read?_of_lt h, CycleUpdate.fault?, h]
    · simp [Memory.read?_eq_none_iff.2 h, CycleUpdate.fault?, h]
  | store addr =>
    simp only [causedFault, hf, hd, updateOf]
    rcases lt_or_ge addr.toNat s.mem.size with h | h
    · simp [Memory.write?_of_lt _ h, CycleUpdate.fault?, h]
    · simp [Memory.write?_eq_none_iff.2 h, CycleUpdate.fault?, h]

theorem causedFault_of_fetch_none {s : State} (hf : s.fetch = none) :
    causedFault s = some (.fetchAddressOutOfRange s.pc) := by
  simp [causedFault, hf]

theorem causedFault_of_invalid {s : State} {w : Word} {op : Opcode} (hf : s.fetch = some w)
    (hd : decode w = .invalid op) : causedFault s = none := by
  simp [causedFault, hf, hd]

/-- Each cause of a fault, with what `pc` addresses and what makes it fault (R130, R134, R135). -/
theorem causedFault_cases {s : State} {f : Fault} (h : causedFault s = some f) :
    (s.fetch = none ∧ f = .fetchAddressOutOfRange s.pc) ∨
    (∃ w rt rs, s.fetch = some w ∧ decode w = .instr (.div rt rs) ∧ s.reg rs = 0 ∧ f = .divisionByZero s.pc) ∨
    ∃ w a, s.fetch = some w ∧ (decode w = .instr (.load a) ∨ decode w = .instr (.store a)) ∧
      s.mem.size ≤ a.toNat ∧ f = .dataAddressOutOfRange a := by
  unfold causedFault at h
  split at h
  · next hf => exact .inl ⟨hf, (Option.some.inj h).symm⟩
  · next w hf =>
    split at h
    · next rt rs hd =>
      obtain ⟨hz, hfault⟩ := Option.ite_none_right_eq_some.1 h
      exact .inr (.inl ⟨w, rt, rs, hf, hd, hz, (Option.some.inj hfault).symm⟩)
    · next a hd =>
      obtain ⟨ha, hfault⟩ := Option.ite_none_right_eq_some.1 h
      exact .inr (.inr ⟨w, a, hf, .inl hd, ha, (Option.some.inj hfault).symm⟩)
    · next a hd =>
      obtain ⟨ha, hfault⟩ := Option.ite_none_right_eq_some.1 h
      exact .inr (.inr ⟨w, a, hf, .inr hd, ha, (Option.some.inj hfault).symm⟩)
    · cases h

/-! ## A cycle of a Running machine -/

theorem step_of_causedFault {s : State} {f : Fault} (hr : s.running = true) (h : causedFault s = some f) :
    step s = .next (s.raise f) := by
  cases hf : s.fetch with
  | none =>
    cases (causedFault_of_fetch_none hf).symm.trans h
    exact step_of_fetch_none hr hf
  | some w =>
    cases hd : decode w with
    | instr i =>
      rw [causedFault_of_instr hf hd] at h
      rw [step_of_instr hr hf hd, exec_eq_apply, CycleUpdate.apply_of_fault? s h]
    | invalid op => cases (causedFault_of_invalid hf hd).symm.trans h

theorem step_completes {s t : State} (hr : s.running = true) (h : causedFault s = none)
    (hs : step s = .next t) : t.fault = none ∧ t.cycles = s.cycles + 1 := by
  obtain ⟨-, hfault⟩ := s.running_iff.1 hr
  cases step_cases hs with
  | still hn => rw [hr] at hn; cases hn
  | fetchFault _ hf => cases (causedFault_of_fetch_none hf).symm.trans h
  | instr _ w hf i hd _ he _ =>
    rw [causedFault_of_instr hf hd] at h
    rw [eq_apply_of_exec he, ← hfault]
    exact CycleUpdate.apply_completes s h
  | invalid => exact ⟨hfault, rfl⟩

/-- Settles O33: the two kinds of cycle, told apart by the event table. -/
theorem faultsExactlyAsTheEventTableSays : Obligations.FaultsExactlyAsTheEventTableSays := by
  intro s t hr hs
  cases hc : causedFault s with
  | none => exact step_completes hr hc hs
  | some f =>
    cases (step_of_causedFault hr hc).symm.trans hs
    rfl

/-- The fault a cycle leaves behind is the one the event table gives. -/
theorem step_fault_eq {s t : State} (hr : s.running = true) (hs : step s = .next t) :
    t.fault = causedFault s := by
  cases hc : causedFault s with
  | none => exact (step_completes hr hc hs).1
  | some f =>
    cases (step_of_causedFault hr hc).symm.trans hs
    rfl

/-- 256 words leave no 8-bit address without a cell (R35, R36), so only a division can fault. -/
theorem causedFault_of_full {s : State} {f : Fault} (hsize : s.mem.size = 256) (h : causedFault s = some f) :
    ∃ p, f = .divisionByZero p := by
  have inRange (a : Addr) : ¬ s.mem.size ≤ a.toNat := by
    have := a.isLt
    omega
  obtain ⟨hf, -⟩ | ⟨_, _, _, -, -, -, hdiv⟩ | ⟨_, a, -, -, ha, -⟩ := causedFault_cases h
  · exact absurd (Memory.read?_eq_none_iff.1 hf) (inRange s.pc)
  · exact ⟨s.pc, hdiv⟩
  · exact absurd ha (inRange a)

/-- Settles O34: the fault left behind is the one of the event table, and that is a division's. -/
theorem fullMemoryRaisesNoAddressFault : Obligations.FullMemoryRaisesNoAddressFault := by
  intro s t hsize hr hs a
  rw [step_fault_eq hr hs]
  constructor <;> intro hc <;> obtain ⟨p, hp⟩ := causedFault_of_full hsize hc <;> cases hp

end Sys2Proof.Proofs
end

