-- ==== Sys2Proof/Proofs/OpcodeMap.lean ====
section
/-! SUPPORT. The opcode map as data against the decoder (`30_encoding.md` R56, R58, R59): a row covers the words
with its opcode, and no two rows share one; from these the statements O1 and O4. -/

namespace Sys2Proof.Proofs

/-- An Invalid word names its own opcode (R56). -/
theorem opcode_of_decode_invalid {w : Word} {op : Opcode} (h : decode w = .invalid op) :
    op.toNat = w.toNat / 256 := by
  obtain ⟨-, hd⟩ | ⟨-, hd⟩ | ⟨-, hd⟩ | ⟨-, hd⟩ | ⟨-, hd⟩ | ⟨-, hd⟩ | ⟨-, hd⟩ | ⟨-, hd⟩ |
    ⟨-, hd⟩ | ⟨-, hd⟩ | ⟨-, hd⟩ := decode_cases w <;> cases hd.symm.trans h
  exact opcodeOf_toNat w

/-- Each row keeps the opcode bits of a word and compares them (R58). -/
theorem covers_iff {row : OpcodeRow} (hrow : row ∈ opcodeMap) (w : Word) :
    row.covers w = true ↔ w.toNat / 256 * 256 = row.pattern.toNat := by
  have hmask : ∀ r ∈ opcodeMap, r.mask = 0xFF00#16 := by decide
  rw [OpcodeRow.covers, hmask row hrow, beq_iff_eq, ← BitVec.toNat_inj, and_opcodeMask_toNat]

theorem row_eq_of_pattern_eq :
    ∀ row ∈ opcodeMap, ∀ other ∈ opcodeMap, other.pattern.toNat = row.pattern.toNat → other = row := by
  decide

theorem row_pattern_le : ∀ row ∈ opcodeMap, row.pattern.toNat ≤ 9 * 256 := by decide

/-- Every instruction has a row of the map, with its opcode in the pattern (R58). -/
theorem exists_row (i : Instr) :
    ∃ row ∈ opcodeMap, row.mnemonic = i.mnemonic ∧ row.form = i.form ∧
      row.pattern.toNat = i.opcode.toNat * 256 := by
  cases i with
  | mov rt rs => exact (Laws.OpcodeField.mov rt rs).2
  | add rt rs => exact (Laws.OpcodeField.add rt rs).2
  | sub rt rs => exact (Laws.OpcodeField.sub rt rs).2
  | mul rt rs => exact (Laws.OpcodeField.mul rt rs).2
  | div rt rs => exact (Laws.OpcodeField.div rt rs).2
  | load addr => exact (Laws.OpcodeField.load addr).2
  | store addr => exact (Laws.OpcodeField.store addr).2
  | jnz addr => exact (Laws.OpcodeField.jnz addr).2
  | j addr => exact (Laws.OpcodeField.j addr).2
  | ret => exact Laws.OpcodeField.ret.2

/-- Settles O4: the row of the instruction covers the word, and any other row that does has the same pattern; the
opcode of an Invalid word is beyond every pattern. -/
theorem opcodeMapIsUnambiguous : Obligations.OpcodeMapIsUnambiguous := by
  refine ⟨fun w i h => ?_, fun w op h => ?_⟩
  · obtain ⟨row, hrow, hmnemonic, hform, hpattern⟩ := exists_row i
    have hw : w.toNat / 256 * 256 = row.pattern.toNat := by rw [hpattern, opcode_of_decode h]
    refine ⟨row, hrow, (covers_iff hrow w).2 hw, hmnemonic, hform, fun other hother hcovers => ?_⟩
    exact row_eq_of_pattern_eq row hrow other hother (((covers_iff hother w).1 hcovers).symm.trans hw)
  · have hop := opcode_of_decode_invalid h
    have hge := le_opcode_of_decode_invalid h
    refine ⟨hop, hop ▸ hge, fun row hrow => ?_⟩
    have hle := row_pattern_le row hrow
    rw [← Bool.not_eq_true, covers_iff hrow]
    omega

/-- Settles O1: eighteen words, each decoded by evaluation. -/
theorem specDecoderVectors : Obligations.SpecDecoderVectors := by
  unfold Obligations.SpecDecoderVectors
  decide

end Sys2Proof.Proofs
end

