-- ==== Sys2Proof/Proofs/SpecStep.lean ====
section
/-! SUPPORT. The model's step against the spec's step function on natural numbers (`40_cycle_and_blocks.md`
R83): how the spec's reading of a state follows each update of the model, then one row of the opcode map at a
time; from these the statement O37. -/

namespace Sys2Proof.Proofs

open Sys2Proof.Machine Sys2Proof.Statements

/-! ## Reading a state as the spec's aggregate -/

@[simp] theorem specState_x (s : State) (r : RegIndex) : (specState s).x r.val = (s.reg r).toNat :=
  dif_pos r.isLt

@[simp] theorem specState_x_zero (s : State) : (specState s).x 0 = (s.reg 0).toNat := specState_x s 0

@[simp] theorem specState_pc (s : State) : (specState s).pc = s.pc.toNat := rfl

theorem specState_mem_of_read? {s : State} {a : Nat} {w : Word} (h : s.mem.read? a = some w) :
    (specState s).mem a = w.toNat := by
  simp only [specState, h]

theorem specState_raise (s : State) (f : Fault) :
    specState (s.raise f) = { specState s with fault := some (specFault f) } := rfl

theorem specState_complete_some (s : State) (target : Addr) :
    specState (s.complete (some target)) =
      { specState s with pc := target.toNat, cycles := (specState s).cycles + 1 } := rfl

theorem specState_complete_none (s : State) : specState (s.complete none) = (specState s).advance :=
  congrArg (fun pc => { specState s with pc := pc, cycles := s.cycles + 1 }) (incPc_toNat s.pc)

theorem specState_setHalt (s : State) : specState s.setHalt = { specState s with halt := true } := rfl

theorem specState_latchDiag (s : State) (op : Opcode) :
    specState (s.latchDiag op) = { specState s with diag := some op.toNat } := rfl

theorem specState_setReg (s : State) (rd : RegIndex) (v : Word) :
    specState (s.setReg rd v) = { specState s with x := replaceAt (specState s).x rd.val v.toNat } := by
  have hx : (specState (s.setReg rd v)).x = replaceAt (specState s).x rd.val v.toNat := by
    funext r
    unfold replaceAt
    by_cases hr : r = rd.val
    · rw [if_pos hr, hr, specState_x, State.reg_setReg_same]
    · rw [if_neg hr]
      by_cases hlt : r < 16
      · have hne : (⟨r, hlt⟩ : RegIndex) ≠ rd := fun h => hr (congrArg Fin.val h)
        simp only [specState, dif_pos hlt, State.reg_setReg_other s v hne]
      · simp only [specState, dif_neg hlt]
  exact congrArg (fun x => { specState s with x := x }) hx

theorem specState_writeBack (s : State) (rd : RegIndex) (v : Word) :
    specState (writeBack s rd v) =
      { specState s with x := replaceAt (specState s).x rd.val v.toNat }.advance := by
  rw [writeBack, specState_complete_none, specState_setReg]

theorem specState_setMem {s : State} {a : Nat} {v : Word} {m : Memory} (h : s.mem.write? a v = some m) :
    specState (s.setMem m) = { specState s with mem := replaceAt (specState s).mem a v.toNat } := by
  obtain ⟨-, hsize, hsame, hother, -⟩ := Memory.write?_cases h
  have hmem : (specState (s.setMem m)).mem = replaceAt (specState s).mem a v.toNat := by
    funext b
    unfold replaceAt
    by_cases hb : b = a
    · rw [if_pos hb, hb]
      exact specState_mem_of_read? hsame
    · simp only [if_neg hb, specState, State.setMem_mem, hother b hb]
  calc specState (s.setMem m)
      = { specState s with memWords := m.size, mem := (specState (s.setMem m)).mem } := rfl
    _ = _ := by rw [hsize, hmem]; rfl

/-! ## One cycle -/

theorem specStep_of_not_running {s : State} (h : s.running = false) : specStep (specState s) = specState s := by
  refine if_pos ?_
  simpa [State.running, specState, Option.isSome_iff_ne_none, or_iff_not_imp_left] using h

theorem specState_running {s : State} (hr : s.running = true) :
    ¬ ((specState s).halt = true ∨ (specState s).fault.isSome = true) := by
  obtain ⟨hhalt, hfault⟩ := s.running_iff.1 hr
  simp [specState, hhalt, hfault]

theorem specState_fetched {s : State} {w : Word} (hf : s.fetch = some w) :
    ¬ (specState s).memWords ≤ (specState s).pc ∧ (specState s).mem (specState s).pc = w.toNat :=
  ⟨not_le.2 (Memory.lt_of_read? hf), specState_mem_of_read? hf⟩

theorem specStep_of_fetch_none {s : State} (hr : s.running = true) (hf : s.fetch = none) :
    specStep (specState s) = { specState s with fault := some (.fetchAddressOutOfRange (specState s).pc) } := by
  have hpc : (specState s).memWords ≤ (specState s).pc := Memory.read?_eq_none_iff.1 hf
  rw [specStep, if_neg (specState_running hr), if_pos hpc]

theorem toNat_ne_zero {v : Word} (h : v ≠ 0) : v.toNat ≠ 0 := BitVec.toNat_ne_iff_ne.2 h

/-- R83 for a cycle that has fetched `w`: the opcode decides the row on both sides, and each row's next state
reads as the spec's. The cases are the rows of the opcode map, in its order. -/
theorem specStep_of_instr {s t : State} {w : Word} {i : Instr} (hr : s.running = true) (hf : s.fetch = some w)
    (hd : decode w = .instr i) (he : exec i s = .next t) : specStep (specState s) = specState t := by
  obtain ⟨hpc, hmem⟩ := specState_fetched hf
  simp only [specStep, if_neg (specState_running hr), if_neg hpc, hmem, ← rtOf_val, ← rsOf_val, ← addrOf_toNat]
  obtain ⟨hop, hd'⟩ | ⟨hop, hd'⟩ | ⟨hop, hd'⟩ | ⟨hop, hd'⟩ | ⟨hop, hd'⟩ | ⟨hop, hd'⟩ | ⟨hop, hd'⟩ | ⟨hop, hd'⟩ |
    ⟨hop, hd'⟩ | ⟨hop, hd'⟩ | ⟨-, hd'⟩ := decode_cases w <;> cases hd'.symm.trans hd
  · cases he
    simp [hop, specState_writeBack, rightOperand]
  · cases he
    simp [hop, specState_writeBack, leftOperand, rightOperand, addWord_toNat]
  · cases he
    simp [hop, specState_writeBack, leftOperand, rightOperand, ← subWord_toNat]
  · cases he
    simp [hop, specState_writeBack, leftOperand, rightOperand, mulWord_toNat]
  · -- `div`: the divisor decides whether the cycle faults
    by_cases hz : s.reg (rsOf w) = 0
    · cases (execDiv_of_zero hz).symm.trans he
      simp [hop, hz, specState_raise, specFault]
    · obtain ⟨q, hq, he'⟩ := execDiv_of_ne (rt := rtOf w) hz
      cases he'.symm.trans he
      obtain ⟨-, hquot⟩ := divWord_toNat hq
      simp [hop, toNat_ne_zero hz, hquot, specState_writeBack]
  · -- `load`: the memory size decides
    rcases lt_or_ge (addrOf w).toNat s.mem.size with h | h
    · cases (execLoad_of_lt h).symm.trans he
      have hlt : ¬ (specState s).memWords ≤ (addrOf w).toNat := not_le.2 h
      simp [hop, hlt, specState_mem_of_read? (Memory.read?_of_lt h), specState_writeBack]
    · cases (execLoad_of_ge h).symm.trans he
      have hge : (specState s).memWords ≤ (addrOf w).toNat := h
      simp [hop, hge, specState_raise, specFault]
  · -- `store`: the memory size decides
    rcases lt_or_ge (addrOf w).toNat s.mem.size with h | h
    · obtain ⟨m, hm, he'⟩ := execStore_of_lt h
      cases he'.symm.trans he
      have hlt : ¬ (specState s).memWords ≤ (addrOf w).toNat := not_le.2 h
      simp [hop, hlt, specState_complete_none, specState_setMem hm]
    · cases (execStore_of_ge h).symm.trans he
      have hge : (specState s).memWords ≤ (addrOf w).toNat := h
      simp [hop, hge, specState_raise, specFault]
  · -- `jnz`: register 0 decides whether the jump is taken
    by_cases hz : s.reg 0 = 0
    · cases (execJnz_of_zero hz).symm.trans he
      simp [hop, hz, specState_complete_none]
    · cases (execJnz_of_ne hz).symm.trans he
      simp [hop, toNat_ne_zero hz, specState_complete_some]
  · cases he
    simp [hop, specState_complete_some, jumpTarget]
  · cases he
    simp [hop, specState_complete_none, specState_setHalt]

theorem specStep_of_invalid {s : State} {w : Word} {op : Opcode} (hr : s.running = true) (hf : s.fetch = some w)
    (hd : decode w = .invalid op) :
    specStep (specState s) = specState ((s.setHalt.latchDiag op).complete none) := by
  obtain ⟨hpc, hmem⟩ := specState_fetched hf
  have hop : op.toNat = w.toNat / 256 := opcode_of_decode_invalid hd
  have hge : 10 ≤ op.toNat := hop ▸ le_opcode_of_decode_invalid hd
  simp only [specStep, if_neg (specState_running hr), if_neg hpc, hmem, ← hop, specState_complete_none,
    specState_latchDiag, specState_setHalt]
  iterate 10 rw [if_neg (by omega)]

/-- Settles O37: the four kinds of step, each the same on both sides. -/
theorem stepRefinesSpecStepFunction : Obligations.StepRefinesSpecStepFunction := by
  intro s
  obtain ⟨t, hs, hc⟩ := step_effect s
  refine ⟨t, hs, ?_⟩
  cases hc with
  | still hr => exact (specStep_of_not_running hr).symm
  | fetchFault hr hf => exact (specStep_of_fetch_none hr hf).symm
  | instr hr w hf i hd _ he _ => exact (specStep_of_instr hr hf hd he).symm
  | invalid hr w hf op hd => exact (specStep_of_invalid hr hf hd).symm

end Sys2Proof.Proofs
end

