-- ==== Sys2Proof/Proofs/Invariant.lean ====
section
/-! SUPPORT. The invariant of reachable states (`10_state.md` R24): what it asks of a Running state, of one that
has just faulted and of one that has just halted, and that a step leads from one of these to another; from these
the statements O39 and O40. -/

namespace Sys2Proof.Proofs

open Sys2Proof.Machine Sys2Proof.Statements

/-! ## Memory and the diagnostic over one cycle -/

theorem exec_mem_wf {i : Instr} {s t : State} (h : exec i s = .next t) (hwf : s.mem.wf = true) :
    t.mem.wf = true := by
  cases exec_cases h with
  | memory addr m _ hm =>
    obtain ⟨-, -, -, -, hkeeps⟩ := Memory.write?_cases hm
    exact hkeeps hwf
  | register | jump | fallThrough | halt | division | address => exact hwf

/-- No instruction touches the latch (R18). -/
theorem exec_diag {i : Instr} {s t : State} (h : exec i s = .next t) : t.diag = s.diag := by
  cases exec_cases h <;> rfl

/-! ## States that meet the invariant -/

/-- In a Running state with no diagnostic there is nothing to explain. -/
theorem inv_of_running {s : State} (hwf : s.mem.wf = true) (hr : s.running = true) (hd : s.diag = none) :
    s.Inv := by
  obtain ⟨hhalt, hfault⟩ := s.running_iff.1 hr
  exact
    { mem_wf := hwf
      not_both := fun h => h.2 hfault
      diag_halts := fun h => absurd hd h
      fault_explained := by simp only [State.FaultExplained, hfault]
      halt_explained := fun h => by rw [hhalt] at h; cases h }

theorem diag_eq_none_of_running {s : State} (h : s.Inv) (hr : s.running = true) : s.diag = none := by
  obtain ⟨hhalt, -⟩ := s.running_iff.1 hr
  by_contra hd
  rw [h.diag_halts hd] at hhalt
  cases hhalt

/-- The cause of a fault is still there to be read once the fault is recorded (R133). -/
theorem raise_faultExplained {s : State} {f : Fault} (h : causedFault s = some f) :
    (s.raise f).FaultExplained := by
  obtain ⟨hf, rfl⟩ | ⟨w, rt, rs, hf, hd, hz, rfl⟩ | ⟨w, a, hf, hd, ha, rfl⟩ := causedFault_cases h
  · exact ⟨rfl, hf⟩
  · exact ⟨rfl, w, rt, rs, hf, hd, hz⟩
  · exact ⟨Memory.read?_eq_none_iff.2 ha, w, hf, hd⟩

theorem raise_inv {s : State} {f : Fault} (h : s.Inv) (hr : s.running = true) (hc : causedFault s = some f) :
    (s.raise f).Inv := by
  obtain ⟨hhalt, -⟩ := s.running_iff.1 hr
  have hhalt : (s.raise f).halt ≠ true := by simp [hhalt]
  exact
    { mem_wf := h.mem_wf
      not_both := fun hb => hhalt hb.1
      diag_halts := fun hd => absurd (diag_eq_none_of_running h hr) hd
      fault_explained := raise_faultExplained hc
      halt_explained := fun hh => absurd hh hhalt }

/-- Halting moves `pc` on by one, so the word that halted is the one before it (D8). -/
theorem read?_before_incPc {s : State} {w : Word} (hf : s.fetch = some w) :
    s.mem.read? (incPc s.pc - 1).toNat = some w := by
  rwa [incPc_sub_one]

theorem ret_inv {s : State} {w : Word} (h : s.Inv) (hr : s.running = true) (hf : s.fetch = some w)
    (hd : decode w = .instr .ret) : (s.setHalt.complete none).Inv := by
  obtain ⟨-, hfault⟩ := s.running_iff.1 hr
  exact
    { mem_wf := h.mem_wf
      not_both := fun hb => hb.2 hfault
      diag_halts := fun _ => rfl
      fault_explained := by simp [State.FaultExplained, hfault]
      halt_explained := fun _ =>
        ⟨w, read?_before_incPc hf, by simpa [diag_eq_none_of_running h hr] using hd⟩ }

theorem invalid_inv {s : State} {w : Word} {op : Opcode} (h : s.Inv) (hr : s.running = true)
    (hf : s.fetch = some w) (hd : decode w = .invalid op) :
    ((s.setHalt.latchDiag op).complete none).Inv := by
  obtain ⟨-, hfault⟩ := s.running_iff.1 hr
  exact
    { mem_wf := h.mem_wf
      not_both := fun hb => hb.2 hfault
      diag_halts := fun _ => rfl
      fault_explained := by simp [State.FaultExplained, hfault]
      halt_explained := fun _ => ⟨w, read?_before_incPc hf, hd⟩ }

/-- An instruction that completes without halting leaves the machine Running. -/
theorem exec_inv_of_running {i : Instr} {s t : State} (h : s.Inv) (hr : s.running = true)
    (he : exec i s = .next t) (hi : i ≠ .ret) (hfault : t.fault = none) : t.Inv := by
  obtain ⟨hhalt, -⟩ := s.running_iff.1 hr
  have hthalt : t.halt = false := by
    rw [← Bool.not_eq_true, exec_halt_iff he]
    simp [hhalt, hi]
  exact inv_of_running (exec_mem_wf he h.mem_wf) (t.running_iff.2 ⟨hthalt, hfault⟩)
    ((exec_diag he).trans (diag_eq_none_of_running h hr))

/-- Settles O40: an ended run stands still; a cycle faults with a cause that explains it, halts at a word that
explains it, or leaves the machine Running. -/
theorem stepKeepsInvariant : Obligations.StepKeepsInvariant := by
  intro s t h hs
  cases step_cases hs with
  | still hr => exact h
  | fetchFault hr hf => exact raise_inv h hr (causedFault_of_fetch_none hf)
  | invalid hr w hf op hd => exact invalid_inv h hr hf hd
  | instr hr w hf i hd _ he _ =>
    cases hcause : causedFault s with
    | some f =>
      cases (step_of_causedFault hr hcause).symm.trans hs
      exact raise_inv h hr hcause
    | none =>
      obtain ⟨hfault, -⟩ := step_completes hr hcause hs
      by_cases hi : i = .ret
      · subst hi
        cases he
        exact ret_inv h hr hf hd
      · exact exec_inv_of_running h hr he hi hfault

/-! ## Reset -/

theorem memWordsOk_iff {n : Nat} : memWordsOk n = true ↔ 1 ≤ n ∧ n ≤ 256 := by
  simp only [memWordsOk, Bool.and_eq_true, decide_eq_true_eq]
  rfl

theorem resetWith_inv {n : Nat} (h : memWordsOk n = true) : (State.resetWith n).Inv :=
  inv_of_running (resetWith_mem_wf h) rfl rfl

/-- Settles O39: a reset machine is Running, with no diagnostic and an empty list of cells. -/
theorem resetMeetsInvariant : Obligations.ResetMeetsInvariant :=
  ⟨fun _ h1 h256 => resetWith_inv (memWordsOk_iff.2 ⟨h1, h256⟩), resetWith_inv (by decide)⟩

end Sys2Proof.Proofs
end

