-- ==== Sys2Proof/Proofs/Condition.lean ====
section
/-! SUPPORT. The three conditions and the end of a run (`40_cycle_and_blocks.md` R76, R85): what a cycle leaves in
the halt flag, the fault status and the diagnostic latch, by what the fetched word is; from these the statements
O23, O24 and O44. -/

namespace Sys2Proof.Proofs

open Sys2Proof.Machine Sys2Proof.Statements

/-! ## The condition as flags -/

theorem condition_eq_running_iff {s : State} : s.condition = .running ↔ s.halt = false ∧ s.fault = none := by
  unfold State.condition
  cases s.halt <;> cases s.fault <;> simp

theorem condition_eq_halted_iff {s : State} : s.condition = .halted ↔ s.halt = true := by
  unfold State.condition
  cases s.halt <;> cases s.fault <;> simp

theorem condition_eq_faulted_iff {s : State} : s.condition = .faulted ↔ s.halt = false ∧ s.fault ≠ none := by
  unfold State.condition
  cases s.halt <;> cases s.fault <;> simp

theorem running_iff_condition {s : State} : s.running = true ↔ s.condition = .running :=
  s.running_iff.trans condition_eq_running_iff.symm

/-! ## What a cycle of a Running machine leaves -/

/-- A cycle sets the halt flag exactly at a `ret` and at an Invalid word (R16). -/
theorem step_halt_iff_of_running {s t : State} (hr : s.running = true) (hs : step s = .next t) :
    t.halt = true ↔ ∃ w, s.fetch = some w ∧ (decode w = .instr .ret ∨ ∃ op, decode w = .invalid op) := by
  obtain ⟨hhalt, -⟩ := s.running_iff.1 hr
  simp [step_halt_iff hs, hhalt, hr]

theorem step_fault_ne_none_iff {s t : State} (hr : s.running = true) (hs : step s = .next t) :
    t.fault ≠ none ↔ (causedFault s).isSome = true := by
  rw [step_fault_eq hr hs, Option.isSome_iff_ne_none]

/-- A faulting cycle leaves the halt flag and the latch alone (R133). -/
theorem step_of_fault_ne_none {s t : State} (hr : s.running = true) (hs : step s = .next t)
    (hfault : t.fault ≠ none) : t.halt = s.halt ∧ t.diag = s.diag := by
  obtain ⟨f, hc⟩ := Option.isSome_iff_exists.1 ((step_fault_ne_none_iff hr hs).1 hfault)
  cases (step_of_causedFault hr hc).symm.trans hs
  exact ⟨rfl, rfl⟩

/-- From a state with no diagnostic, a cycle latches exactly the opcode of an Invalid word (R18). -/
theorem step_diag_iff {s t : State} {op : Opcode} (hr : s.running = true) (hdiag : s.diag = none)
    (hs : step s = .next t) :
    t.diag = some (.invalidOpcode op) ↔ ∃ w, s.fetch = some w ∧ decode w = .invalid op := by
  cases step_cases hs with
  | still hn => rw [hr] at hn; cases hn
  | fetchFault _ hf => simp [hdiag, hf]
  | instr _ w hf i hd _ he _ => simp [exec_diag he, hdiag, hf, hd]
  | invalid _ w hf op' hd => simp [hf, hd]

/-- Settles O23: the condition is read off the two flags, and the cycle's effect on each is known. -/
theorem conditionFollowsHaltAndFault : Obligations.ConditionFollowsHaltAndFault := by
  refine ⟨rfl, fun s h => ⟨condition_eq_running_iff, condition_eq_halted_iff, ?_⟩, fun s t hs hr => ?_, ?_⟩
  · have hhalt (hf : s.fault ≠ none) : s.halt = false := by
      rw [← Bool.not_eq_true]
      exact fun hh => h.not_both ⟨hh, hf⟩
    exact condition_eq_faulted_iff.trans ⟨And.right, fun hf => ⟨hhalt hf, hf⟩⟩
  · have hr := running_iff_condition.2 hr
    obtain ⟨hhalt, -⟩ := s.running_iff.1 hr
    refine ⟨condition_eq_halted_iff.trans (step_halt_iff_of_running hr hs), ?_⟩
    rw [condition_eq_faulted_iff, ← step_fault_ne_none_iff hr hs]
    refine ⟨And.right, fun hf => ⟨?_, hf⟩⟩
    obtain ⟨hsame, -⟩ := step_of_fault_ne_none hr hs hf
    exact hsame.trans hhalt
  · intro s t hs hn
    have hn : s.running = false := Bool.eq_false_iff.2 (mt running_iff_condition.1 hn)
    cases (step_of_not_running hn).symm.trans hs
    rfl

/-- Settles O24: each of the three ends is one effect of the cycle, and the word at `pc` decides which. -/
theorem endOfRunTellsItsCause : Obligations.EndOfRunTellsItsCause := by
  intro s t h hr hs
  have hdiag := diag_eq_none_of_running h hr
  have hhalts := step_halt_iff_of_running hr hs
  have hlatches (op : Opcode) := step_diag_iff (op := op) hr hdiag hs
  have hfaults := step_fault_eq hr hs
  refine ⟨⟨?_, ?_⟩, fun op => ⟨?_, ?_⟩, step_fault_ne_none_iff hr hs⟩
  · rintro ⟨⟨hhalt, -⟩, hnone⟩
    obtain ⟨w, hf, hd | ⟨op, hd⟩⟩ := hhalts.1 hhalt
    · exact ⟨w, hf, hd⟩
    · have := (hlatches op).2 ⟨w, hf, hd⟩
      rw [hnone] at this
      cases this
  · rintro ⟨w, hf, hd⟩
    refine ⟨⟨hhalts.2 ⟨w, hf, .inl hd⟩, hfaults.trans (causedFault_of_instr hf hd)⟩, ?_⟩
    cases hop : t.diag with
    | none => rfl
    | some d =>
      cases d with
      | invalidOpcode op =>
        obtain ⟨w', hf', hd'⟩ := (hlatches op).1 hop
        cases hf.symm.trans hf'
        cases hd.symm.trans hd'
  · exact fun ⟨_, hop⟩ => (hlatches op).1 hop
  · rintro ⟨w, hf, hd⟩
    exact ⟨⟨hhalts.2 ⟨w, hf, .inr ⟨op, hd⟩⟩, hfaults.trans (causedFault_of_invalid hf hd)⟩,
      (hlatches op).2 ⟨w, hf, hd⟩⟩

/-! ## The event code -/

theorem eventCode_of_fault {s : State} {f : Fault} (h : s.fault = some f) : s.eventCode = f.code := by
  simp only [State.eventCode, h]

/-- Settles O44: a fault excludes a diagnostic after the cycle, so the code is the fault's, or else the latch's. -/
theorem eventCodeNamesTheEvent : Obligations.EventCodeNamesTheEvent := by
  intro s t hr hdiag hs
  cases hfault : t.fault with
  | some f =>
    obtain ⟨-, hsame⟩ := step_of_fault_ne_none hr hs (by simp [hfault])
    rw [eventCode_of_fault hfault, hsame.trans hdiag]
    cases f <;> simp [Fault.code]
  | none =>
    cases hd : t.diag with
    | none => simp [State.eventCode, hfault, hd]
    | some d => cases d; simp [State.eventCode, hfault, hd]

end Sys2Proof.Proofs
end

