-- ==== Sys2Proof/Proofs/Run.lean ====
section
/-! SUPPORT. Steps and runs (`40_cycle_and_blocks.md` R83, R86): every step answers a next state, an ended run
stands still, and the cycle counter follows the run without being read by it (`10_state.md` R19); from these the
statements O25 to O30 and O35. -/

namespace Sys2Proof.Proofs

open Sys2Proof.Machine Sys2Proof.Statements

/-! ## One step -/

/-- Settles O27: the laws of `exec` and `step` name the next state. -/
theorem stepAlwaysAnswersNext : Obligations.StepAlwaysAnswersNext :=
  ⟨fun s => (step_effect s).imp fun _ h => h.1, fun i s => ⟨_, exec_eq_apply i s⟩⟩

/-- Settles O25: the fetch is the read at `pc`. -/
theorem stepRunsDecodedInstruction : Obligations.StepRunsDecodedInstruction :=
  fun _ _ _ hr hread hd => step_of_instr hr hread hd

/-- Settles O26: beyond memory the fetch has no word. -/
theorem fetchBeyondMemoryFaults : Obligations.FetchBeyondMemoryFaults :=
  fun _ hr hpc => ⟨_, step_of_fetch_none hr (Memory.read?_eq_none_iff.2 hpc), rfl⟩

/-- Settles O28: a cycle of a Running machine records a fault or counts, so it changes the state. -/
theorem stepIsIdentityExactlyWhenNotRunning : Obligations.StepIsIdentityExactlyWhenNotRunning := by
  refine fun s => ⟨fun hs => ?_, step_of_not_running⟩
  by_contra hr
  rw [Bool.not_eq_false] at hr
  cases hc : causedFault s with
  | some f =>
    obtain ⟨-, hfault⟩ := s.running_iff.1 hr
    have := step_fault_eq hr hs
    rw [hfault, hc] at this
    cases this
  | none =>
    obtain ⟨-, hcycles⟩ := step_completes hr hc hs
    omega

/-! ## Runs -/

theorem run_succ {k : Nat} {s u : State} (h : step s = .next u) :
    Host.Core.run core (k + 1) s = Host.Core.run core k u := by
  have h : core.step s = .next u := h
  simp only [Host.Core.run, h]

theorem run_succ_cases {k : Nat} {s t : State} (h : Host.Core.run core (k + 1) s = .next t) :
    ∃ u, step s = .next u ∧ Host.Core.run core k u = .next t := by
  obtain ⟨u, hu, -⟩ := step_effect s
  exact ⟨u, hu, (run_succ hu).symm.trans h⟩

theorem run_of_not_running {s : State} (h : s.running = false) (k : Nat) :
    Host.Core.run core k s = .next s := by
  induction k with
  | zero => rfl
  | succ k ih => exact (run_succ (step_of_not_running h)).trans ih

/-- Settles O29: an ended machine is not Running, and no step of the run changes that. -/
theorem endedRunNeverChanges : Obligations.EndedRunNeverChanges := by
  intro k s h
  have hr : s.running = false := by
    rw [Bool.eq_false_iff, Ne, s.running_iff]
    rintro ⟨hhalt, hfault⟩
    rcases h with h | h
    · rw [hhalt] at h; cases h
    · exact h hfault
  exact run_of_not_running hr k

/-! ## The count -/

theorem step_cycles_of_running {s t : State} (hr : s.running = true) (hs : step s = .next t) :
    t.cycles = s.cycles + (if t.fault = none then 1 else 0) := by
  rw [step_fault_eq hr hs]
  cases hc : causedFault s with
  | none => exact (step_completes hr hc hs).2
  | some f =>
    cases (step_of_causedFault hr hc).symm.trans hs
    rfl

theorem step_cycles_le {s t : State} (hs : step s = .next t) : t.cycles ≤ s.cycles + 1 := by
  by_cases hr : s.running = true
  · have := step_cycles_of_running hr hs
    split at this <;> omega
  · cases (step_of_not_running (Bool.eq_false_iff.2 hr)).symm.trans hs
    omega

/-- Only a machine that was Running and did not fault is Running after a step, so it has counted. -/
theorem step_cycles_of_running_after {s t : State} (hs : step s = .next t) (ht : t.running = true) :
    t.cycles = s.cycles + 1 := by
  obtain ⟨-, hfault⟩ := t.running_iff.1 ht
  by_cases hr : s.running = true
  · rw [step_cycles_of_running hr hs, if_pos hfault]
  · cases (step_of_not_running (Bool.eq_false_iff.2 hr)).symm.trans hs
    exact absurd ht hr

theorem run_cycles {k : Nat} {s t : State} (h : Host.Core.run core k s = .next t) :
    t.cycles ≤ s.cycles + k ∧ (t.running = true → t.cycles = s.cycles + k) := by
  induction k generalizing s with
  | zero => cases h; exact ⟨le_rfl, fun _ => rfl⟩
  | succ k ih =>
    obtain ⟨u, hs, hu⟩ := run_succ_cases h
    obtain ⟨hle, heq⟩ := ih hu
    have hstep := step_cycles_le hs
    refine ⟨by omega, fun ht => ?_⟩
    have hur : u.running = true := by
      by_contra hn
      cases (run_of_not_running (Bool.eq_false_iff.2 hn) k).symm.trans hu
      exact hn ht
    have := heq ht
    have := step_cycles_of_running_after hs hur
    omega

/-- Settles O30: one cycle by the event table, a run by induction on its length. -/
theorem cycleCounterCountsCompletedCycles : Obligations.CycleCounterCountsCompletedCycles :=
  ⟨fun _ _ => step_cycles_of_running, fun _ _ _ => run_cycles⟩

/-! ## The counter is not read -/

/-- No update depends on the counter. -/
theorem updateOf_withCycles (s : State) (c : Nat) (i : Instr) :
    updateOf { s with cycles := c } i = updateOf s i := by
  cases i <;> rfl

/-- An update adds to the counter the same number whatever it holds, and carries it along otherwise. -/
theorem CycleUpdate.apply_withCycles (u : CycleUpdate) (s : State) (c : Nat) :
    ∃ c', u.apply { s with cycles := c } = { u.apply s with cycles := c' } ∧
      c' + s.cycles = (u.apply s).cycles + c := by
  cases u with
  | fault f => exact ⟨c, rfl, Nat.add_comm _ _⟩
  | writeReg | setMem | transfer | halt => exact ⟨c + 1, rfl, show c + 1 + s.cycles = s.cycles + 1 + c by omega⟩

theorem step_withCycles {s t : State} (c : Nat) (hs : step s = .next t) :
    ∃ c', step { s with cycles := c } = .next { t with cycles := c' } ∧ c' + s.cycles = t.cycles + c := by
  cases step_cases hs with
  | still hr => exact ⟨c, step_of_not_running hr, Nat.add_comm _ _⟩
  | fetchFault hr hf => exact ⟨c, step_of_fetch_none hr hf, Nat.add_comm _ _⟩
  | instr hr w hf i hd _ he _ =>
    obtain ⟨c', happly, hcount⟩ := (updateOf s i).apply_withCycles s c
    cases eq_apply_of_exec he
    refine ⟨c', ?_, hcount⟩
    rw [step_of_instr (s := { s with cycles := c }) hr hf hd, exec_eq_apply, updateOf_withCycles, happly]
  | invalid hr w hf op hd =>
    exact ⟨c + 1, step_of_invalid (s := { s with cycles := c }) hr hf hd,
      show c + 1 + s.cycles = s.cycles + 1 + c by omega⟩

/-- Settles O35: an induction on the length of the run, the difference carried from step to step. -/
theorem cycleCounterIsUnobservable : Obligations.CycleCounterIsUnobservable := by
  intro k
  induction k with
  | zero =>
    intro s t c h
    cases h
    exact ⟨c, rfl, Nat.add_comm _ _⟩
  | succ k ih =>
    intro s t c h
    obtain ⟨u, hs, hu⟩ := run_succ_cases h
    obtain ⟨cu, hs', hcu⟩ := step_withCycles c hs
    obtain ⟨ct, hu', hct⟩ := ih u t cu hu
    exact ⟨ct, (run_succ hs').trans hu', by omega⟩

end Sys2Proof.Proofs
end

