-- ==== Sys2Proof/Proofs/Noninterference.lean ====
section
/-! SUPPORT. What an instruction may depend on and what it may touch (`10_state.md` R12, R13; `20_memory.md` R34):
its update is a function of the registers it reads, the memory, and for the record of a division fault `pc`; from
this the statements O31, O32 and O36. -/

namespace Sys2Proof.Proofs

open Sys2Proof.Machine Sys2Proof.Statements

/-! ## Registers (R12) -/

theorem writesOf_eq_dest? (i : Instr) : writesOf i = Instr.dest? i := by
  cases i <;> rfl

/-- A register that R12 does not name as written stays, and all of them in a cycle that is not counted. -/
theorem exec_registers {i : Instr} {s t : State} (h : exec i s = .next t) :
    (∀ r, writesOf i ≠ some r → t.reg r = s.reg r) ∧ (t.cycles = s.cycles → t.x = s.x) := by
  cases exec_cases h with
  | register rd v hd =>
    rw [writesOf_eq_dest?, hd]
    refine ⟨fun r hr => writeBack_reg_other s v fun hrd => hr (congrArg some hrd.symm), fun hc => ?_⟩
    rw [writeBack_cycles] at hc
    omega
  | memory | jump | fallThrough | halt | division | address => exact ⟨fun _ _ => rfl, fun _ => rfl⟩

/-- The update depends on no register that R12 does not name as read. -/
theorem updateOf_withRegisters {i : Instr} {s : State} {x' : Vector Word 16}
    (h : ∀ r ∈ readsOf i, ({ s with x := x' } : State).reg r = s.reg r) :
    updateOf { s with x := x' } i = updateOf s i := by
  cases i with
  | load | j | ret => rfl
  | mov rt rs | store addr | jnz addr =>
    simp only [readsOf, List.forall_mem_singleton] at h
    simp only [updateOf, h]
  | add rt rs | sub rt rs | mul rt rs | div rt rs =>
    have ht := h rt (by simp [readsOf])
    have hs := h rs (by simp [readsOf])
    simp only [updateOf, ht, hs]

/-- Beside the registers, an update leaves the same behind whatever they hold. -/
theorem CycleUpdate.apply_withRegisters (u : CycleUpdate) (s : State) (x' : Vector Word 16) :
    u.apply { s with x := x' } = { u.apply s with x := (u.apply { s with x := x' }).x } := by
  cases u <;> rfl

/-- An instruction that R12 names as writing a register writes it or faults. -/
theorem updateOf_of_writes {i : Instr} {r : RegIndex} (s : State) (h : writesOf i = some r) :
    (∃ v, updateOf s i = .writeReg r v) ∨ ∃ f, updateOf s i = .fault f := by
  cases i with
  | mov | add | sub | mul => cases h; exact .inl ⟨_, rfl⟩
  | div rt rs =>
    cases h
    simp only [updateOf]
    cases divWord (s.reg r) (s.reg rs) with
    | some q => exact .inl ⟨q, rfl⟩
    | none => exact .inr ⟨_, rfl⟩
  | load addr =>
    cases h
    simp only [updateOf]
    cases s.mem.read? addr.toNat with
    | some w => exact .inl ⟨w, rfl⟩
    | none => exact .inr ⟨_, rfl⟩
  | store | jnz | j | ret => cases h

/-- The value a completed cycle writes is the one in the update, whatever the registers hold. -/
theorem apply_reg_of_writes {i : Instr} {r : RegIndex} {s : State} (s' : State) (h : writesOf i = some r)
    (hc : ((updateOf s i).apply s).cycles = s.cycles + 1) :
    ((updateOf s i).apply s').reg r = ((updateOf s i).apply s).reg r := by
  obtain ⟨v, hu⟩ | ⟨f, hu⟩ := updateOf_of_writes s h <;> rw [hu] at hc ⊢
  · simp only [CycleUpdate.apply, writeBack_reg_same]
  · simp [CycleUpdate.apply] at hc

theorem exec_withRegisters {i : Instr} {s s' t t' : State} (hs' : s' = { s with x := s'.x })
    (h : ∀ r ∈ readsOf i, s'.reg r = s.reg r) (he : exec i s = .next t) (he' : exec i s' = .next t') :
    t' = { t with x := t'.x } ∧
      ∀ r, writesOf i = some r → t.cycles = s.cycles + 1 → t'.reg r = t.reg r := by
  cases eq_apply_of_exec he
  cases eq_apply_of_exec he'
  have hu : updateOf s' i = updateOf s i := by
    rw [hs'] at h ⊢
    exact updateOf_withRegisters h
  rw [hu]
  refine ⟨?_, fun r hr hc => apply_reg_of_writes s' hr hc⟩
  rw [hs']
  exact CycleUpdate.apply_withRegisters _ s _

/-- Settles O31: the written and the read registers of the table, then the Invalid cycle and the host, which touch
none. -/
theorem registerAccessFollowsTable : Obligations.RegisterAccessFollowsTable := by
  refine ⟨fun _ _ _ => exec_registers, fun _ _ _ _ _ => exec_withRegisters, ?_, ?_, fun _ _ _ => ⟨rfl, rfl⟩⟩
  · intro op s t x' h
    cases h
    exact ⟨rfl, rfl⟩
  · intro s t a v h
    obtain ⟨-, m, -, rfl⟩ := hostWrite?_cases h
    exact State.setMem_x s m

/-! ## Memory (R34) -/

/-- Settles O32: of all a step can do, one case alone writes memory, and its write is at one address. -/
theorem onlyStoreChangesMemory : Obligations.OnlyStoreChangesMemory := by
  intro s t hs
  cases step_cases hs with
  | still | fetchFault | invalid => exact ⟨rfl, .inl fun _ => rfl⟩
  | instr hr w hf i hd _ _ hc =>
    cases hc with
    | memory addr m hi hm =>
      obtain ⟨-, hsize, -, hother, -⟩ := Memory.write?_cases hm
      exact ⟨hsize, .inr ⟨w, addr, hr, hf, hi ▸ hd, hother⟩⟩
    | register | jump | fallThrough | halt | division | address => exact ⟨rfl, .inl fun _ => rfl⟩

/-! ## The program counter (R13) -/

theorem reg_withPc (s : State) (p : Addr) (r : RegIndex) : ({ s with pc := p } : State).reg r = s.reg r := rfl

/-- The update depends on `pc` in the record of a division fault alone. -/
theorem updateOf_withPc (i : Instr) (s : State) (p : Addr) :
    updateOf { s with pc := p } i = updateOf s i ∨
      updateOf s i = .fault (.divisionByZero s.pc) ∧
        updateOf { s with pc := p } i = .fault (.divisionByZero p) := by
  cases i with
  | mov | add | sub | mul | load | store | jnz | j | ret => exact .inl rfl
  | div rt rs =>
    cases hq : divWord (s.reg rt) (s.reg rs) with
    | some q => exact .inl (by simp only [updateOf, reg_withPc, hq])
    | none => exact .inr (by simp only [updateOf, reg_withPc, hq, and_self])

/-- An update leaves the same behind whatever `pc` is, but for `pc` itself. -/
theorem CycleUpdate.apply_withPc (u : CycleUpdate) (s : State) (p : Addr) :
    u.apply { s with pc := p } = { u.apply s with pc := (u.apply { s with pc := p }).pc } := by
  cases u <;> rfl

/-- Settles O36: with the same update the two states differ in `pc` alone; otherwise both cycles record a division
fault and nothing else. -/
theorem pcReachesNoRegisterOrMemory : Obligations.PcReachesNoRegisterOrMemory := by
  intro i s t t' p he he'
  cases eq_apply_of_exec he
  cases eq_apply_of_exec he'
  obtain hu | ⟨hu, hu'⟩ := updateOf_withPc i s p
  · rw [hu, CycleUpdate.apply_withPc]
    exact ⟨rfl, rfl, rfl, rfl, rfl, .inl rfl⟩
  · rw [hu, hu']
    exact ⟨rfl, rfl, rfl, rfl, rfl, .inr rfl⟩

end Sys2Proof.Proofs
end

