-- ==== Sys2Proof/Proofs/Instructions.lean ====
section
/-! SUPPORT. The meanings of the arithmetic, memory and halt forms (`41_register_form.md`, `42_memory_form.md`,
`44_halt_form.md`), each an answer of the laws of `exec` with the frame of its kind of cycle; from these the
statements O6 to O13, O17, O20 and O21. -/

namespace Sys2Proof.Proofs

open Sys2Proof.Machine Sys2Proof.Statements

/-! ## Register form -/

theorem exec_add (rt rs : RegIndex) (s : State) :
    exec (.add rt rs) s = .next (writeBack s rt (addWord (s.reg rt) (s.reg rs))) := rfl

theorem exec_sub (rt rs : RegIndex) (s : State) :
    exec (.sub rt rs) s = .next (writeBack s rt (subWord (s.reg rt) (s.reg rs))) := rfl

theorem exec_mul (rt rs : RegIndex) (s : State) :
    exec (.mul rt rs) s = .next (writeBack s rt (mulWord (s.reg rt) (s.reg rs))) := rfl

/-- Settles O6: the value written is the reduced sum. -/
theorem addIsSumModuloWord : Obligations.AddIsSumModuloWord := fun rt rs s =>
  ⟨_, exec_add rt rs s, by rw [writeBack_reg_same, addWord_toNat], writeBack_writesOnlyRegister s rt _⟩

/-- Settles O7: the value written is the non-negative residue of the difference. -/
theorem subIsDifferenceModuloWord : Obligations.SubIsDifferenceModuloWord := fun rt rs s =>
  ⟨_, exec_sub rt rs s, by rw [writeBack_reg_same, subWord_toNat], writeBack_writesOnlyRegister s rt _⟩

/-- Settles O8: the value written is the reduced product. -/
theorem mulIsProductModuloWord : Obligations.MulIsProductModuloWord := fun rt rs s =>
  ⟨_, exec_mul rt rs s, by rw [writeBack_reg_same, mulWord_toNat], writeBack_writesOnlyRegister s rt _⟩

/-- Settles O9: division of natural numbers gives the largest such quotient. -/
theorem divIsFloorQuotient : Obligations.DivIsFloorQuotient := by
  intro rt rs s hne
  obtain ⟨q, hq, he⟩ := execDiv_of_ne (rt := rt) hne
  obtain ⟨-, hquot⟩ := divWord_toNat hq
  have hpos : 0 < (s.reg rs).toNat := Nat.pos_of_ne_zero (toNat_ne_zero hne)
  refine ⟨_, he, ?_, fun k hk => ?_, writeBack_writesOnlyRegister s rt q⟩
  · rw [writeBack_reg_same, hquot]
    exact Nat.div_mul_le_self _ _
  · rw [writeBack_reg_same, hquot]
    exact (Nat.le_div_iff_mul_le hpos).2 hk

/-- Settles O10: a zero divisor raises the fault. -/
theorem divisionByZeroFaults : Obligations.DivisionByZeroFaults :=
  fun _ _ _ hz => ⟨_, execDiv_of_zero hz, rfl⟩

/-! ## Memory form -/

/-- Settles O11: the value written is the word read. -/
theorem loadReadsMemoryIntoRegisterZero : Obligations.LoadReadsMemoryIntoRegisterZero := fun _ s h =>
  ⟨_, execLoad_of_lt h, by rw [writeBack_reg_same]; exact Memory.read?_of_lt h, writeBack_writesOnlyRegister s 0 _⟩

/-- Settles O12: the memory operation changes one word, and completing the cycle touches neither registers nor
status. -/
theorem storeWritesRegisterZeroToMemory : Obligations.StoreWritesRegisterZeroToMemory := by
  intro addr s h
  obtain ⟨m, hm, he⟩ := execStore_of_lt h
  obtain ⟨-, -, hsame, hother, -⟩ := Memory.write?_cases hm
  obtain ⟨hregs, -, hstatus, hcounted⟩ := complete_frame (s.setMem m) none
  exact ⟨_, he, hsame, hother, hregs, hstatus, complete_none_advanced (s.setMem m), hcounted⟩

/-- Settles O13: without a cell both raise the fault. -/
theorem dataAddressBeyondMemoryFaults : Obligations.DataAddressBeyondMemoryFaults :=
  fun _ _ h => ⟨⟨_, execLoad_of_ge h, rfl⟩, ⟨_, execStore_of_ge h, rfl⟩⟩

/-- Settles O17: the next fetch reads the memory that the store has left. -/
theorem storeIsSeenByTheNextFetch : Obligations.StoreIsSeenByTheNextFetch := by
  intro s t w addr hr hf hd h hs
  obtain ⟨m, hm, he⟩ := execStore_of_lt h
  obtain ⟨-, -, hsame, hother, -⟩ := Memory.write?_cases hm
  rw [step_of_instr hr hf hd, he] at hs
  cases hs
  have hrunning : ((s.setMem m).complete none).running = true := hr
  refine ⟨hrunning, complete_none_advanced (s.setMem m), hsame, fun hpc => ?_, fun hpc => ?_⟩
  · have hfetch : ((s.setMem m).complete none).fetch = some (s.reg 0) := by
      rw [State.fetch, ← hpc]
      exact hsame
    exact ⟨hfetch, fun _ => step_of_instr hrunning hfetch, fun _ => step_of_invalid hrunning hfetch⟩
  · exact hother _ fun heq => hpc (BitVec.eq_of_toNat_eq heq.symm)

/-! ## Halt form -/

/-- Settles O20: setting the flag and completing the cycle are all of `ret`. -/
theorem retSetsHaltAndAdvances : Obligations.RetSetsHaltAndAdvances := by
  intro s
  obtain ⟨hregs, hmem, -, hcounted⟩ := complete_frame s.setHalt none
  exact ⟨_, rfl, rfl, rfl, rfl, hregs, hmem, complete_none_advanced s.setHalt, hcounted⟩

theorem decode_of_opcode_ge {w : Word} (h : 0x0A ≤ w.toNat / 256) :
    decode w = .invalid (BitVec.ofNat 8 (w.toNat / 256)) := by
  obtain ⟨-, -, -, -, -, -, -, -, -, -, hinvalid⟩ := decoderFollowsOpcodeAndFields w
  exact hinvalid h

/-- Setting the flag, latching the opcode and completing the cycle are all of an Invalid word's cycle (R121). -/
theorem step_of_invalid_frame {s : State} {w : Word} {op : Opcode} (hr : s.running = true) (hf : s.fetch = some w)
    (hd : decode w = .invalid op) :
    ∃ t, step s = .next t ∧ t.halt = true ∧ t.diag = some (.invalidOpcode op) ∧ t.fault = s.fault ∧
      SameRegisters s t ∧ SameMemory s t ∧ Advanced s t ∧ Counted s t := by
  obtain ⟨hregs, hmem, -, hcounted⟩ := complete_frame (s.setHalt.latchDiag op) none
  exact ⟨_, step_of_invalid hr hf hd, rfl, rfl, rfl, hregs, hmem,
    complete_none_advanced (s.setHalt.latchDiag op), hcounted⟩

/-- Settles O21: a word with such an opcode decodes to Invalid. -/
theorem invalidWordHaltsWithDiagnostic : Obligations.InvalidWordHaltsWithDiagnostic :=
  fun _ _ hr hf h => step_of_invalid_frame hr hf (decode_of_opcode_ge h)

end Sys2Proof.Proofs
end

