-- ==== Sys2Proof/Proofs/CanonicalMemory.lean ====
section
/-! SUPPORT. The canonical form of a memory (the model's choice, `notes/assumptions/13.md`): a rising list without
the unlisted value is determined by what it reads as; from this the statement O16. -/

namespace Sys2Proof.Proofs

open Sys2Proof.Machine

@[simp] theorem lookupCell_cons_self (c : Cell) (cs : List Cell) : lookupCell (c :: cs) c.1 = c.2 :=
  if_pos rfl

/-- The first entry of a canonical list is not to be read from one whose entries all lie above it. -/
theorem lookupCell_ne_of_below {size lo : Nat} {c : Cell} {cs cs' : List Cell}
    (h : cellsOk size lo (c :: cs) = true) (h' : cellsOk size (c.1 + 1) cs' = true) :
    lookupCell (c :: cs) c.1 ≠ lookupCell cs' c.1 := by
  obtain ⟨-, -, hne, -⟩ := cellsOk_cons.1 h
  rw [lookupCell_cons_self, lookupCell_below h' (Nat.lt_succ_self _)]
  exact hne

theorem cells_eq_of_lookupCell_eq {size lo : Nat} {cs cs' : List Cell} (h : cellsOk size lo cs = true)
    (h' : cellsOk size lo cs' = true) (heq : ∀ a < size, lookupCell cs a = lookupCell cs' a) : cs = cs' := by
  induction cs generalizing lo cs' with
  | nil =>
    cases cs' with
    | nil => rfl
    | cons c' cs' =>
      obtain ⟨-, hlt, -, -⟩ := cellsOk_cons.1 h'
      exact absurd (heq c'.1 hlt).symm (lookupCell_ne_of_below h' rfl)
  | cons c cs ih =>
    obtain ⟨hlo, hlt, hne, hcs⟩ := cellsOk_cons.1 h
    cases cs' with
    | nil => exact absurd (heq c.1 hlt) (lookupCell_ne_of_below h rfl)
    | cons c' cs' =>
      obtain ⟨hlo', hlt', hne', hcs'⟩ := cellsOk_cons.1 h'
      have haddr : c.1 = c'.1 := by
        rcases lt_trichotomy c.1 c'.1 with hcc | hcc | hcc
        · exact absurd (heq c.1 hlt) (lookupCell_ne_of_below h (cellsOk_cons.2 ⟨hcc, hlt', hne', hcs'⟩))
        · exact hcc
        · exact absurd (heq c'.1 hlt').symm (lookupCell_ne_of_below h' (cellsOk_cons.2 ⟨hcc, hlt, hne, hcs⟩))
      have hval : c.2 = c'.2 := by
        have := heq c.1 hlt
        rwa [lookupCell_cons_self, haddr, lookupCell_cons_self] at this
      obtain rfl : c = c' := Prod.ext haddr hval
      rw [ih hcs hcs' fun a ha => ?_]
      by_cases hac : c.1 = a
      · rw [← hac, lookupCell_below hcs (Nat.lt_succ_self _), lookupCell_below hcs' (Nat.lt_succ_self _)]
      · have := heq a ha
        simpa only [lookupCell, if_neg hac] using this

theorem size_eq_of_read?_eq {m m' : Memory} (h : ∀ a, m.read? a = m'.read? a) : m.size = m'.size := by
  have hle (a : Nat) : m.size ≤ a ↔ m'.size ≤ a := by
    rw [← Memory.read?_eq_none_iff, h, Memory.read?_eq_none_iff]
  exact le_antisymm ((hle _).2 le_rfl) ((hle _).1 le_rfl)

/-- Settles O16: the reads fix the size, and below it the listed words. -/
theorem canonicalMemoriesWithEqualReadsAreEqual : Obligations.CanonicalMemoriesWithEqualReadsAreEqual := by
  intro m m' hwf hwf' h
  obtain ⟨size, cells⟩ := m
  obtain ⟨size', cells'⟩ := m'
  obtain rfl : size = size' := size_eq_of_read?_eq h
  simp only [Memory.wf, Bool.and_eq_true] at hwf hwf'
  obtain ⟨-, hcells⟩ := hwf
  obtain ⟨-, hcells'⟩ := hwf'
  rw [cells_eq_of_lookupCell_eq hcells hcells' fun a ha => ?_]
  have := h a
  rwa [Memory.read?_of_lt ha, Memory.read?_of_lt ha, Option.some_inj] at this

end Sys2Proof.Proofs
end

