-- ==== Sys2Proof/Proofs/Launch.lean ====
section
/-! SUPPORT. Reset, the loader and the host (`70_reset_and_hazards.md` R150 to R156), and the model's stand-in for a
load: what stands in memory after a list of words is written, and that nothing else is touched; from these the
statements O38, O41, O42, O43 and O45. -/

namespace Sys2Proof.Proofs

open Sys2Proof.Machine Sys2Proof.Statements

/-! ## Reset -/

theorem resetWith_reg (n : Nat) (r : RegIndex) : (State.resetWith n).reg r = 0 := by
  simp [State.reg, State.resetWith]

theorem resetWith_read? (n a : Nat) : (State.resetWith n).mem.read? a = if a < n then some 0 else none := by
  split
  · next h => exact resetWith_read?_of_lt h
  · next h => exact Memory.read?_eq_none_iff.2 (not_lt.1 h)

/-- Settles O38: field by field, the registers and the words by what they read as. -/
theorem resetLeavesSpecValues : Obligations.ResetLeavesSpecValues :=
  ⟨fun n => ⟨resetWith_reg n, resetWith_read? n, rfl, rfl, rfl, rfl, rfl⟩, rfl⟩

/-! ## Words written at rising addresses -/

theorem fill?_cons {m m' : Memory} {b : Nat} {w : Word} {ws : List Word} :
    m.fill? b (w :: ws) = some m' ↔ ∃ m₁, m.write? b w = some m₁ ∧ m₁.fill? (b + 1) ws = some m' :=
  Option.bind_eq_some_iff

theorem exists_fill? {m : Memory} {b : Nat} {ws : List Word} (h : b + ws.length ≤ m.size) :
    ∃ m', m.fill? b ws = some m' := by
  induction ws generalizing m b with
  | nil => exact ⟨m, rfl⟩
  | cons w ws ih =>
    rw [List.length_cons] at h
    obtain ⟨m₁, hm₁⟩ := exists_write?_of_lt (m := m) (a := b) w (by omega)
    obtain ⟨-, hsize, -⟩ := Memory.write?_cases hm₁
    obtain ⟨m', hm'⟩ := ih (m := m₁) (b := b + 1) (by omega)
    exact ⟨m', fill?_cons.2 ⟨m₁, hm₁, hm'⟩⟩

/-- All a fill does: the size stays, the words stand from `b` on in order, every other word is as before. -/
theorem fill?_cases {m m' : Memory} {b : Nat} {ws : List Word} (h : m.fill? b ws = some m') :
    m'.size = m.size ∧ (∀ k < ws.length, m'.read? (b + k) = ws[k]?) ∧
      ∀ a, a < b ∨ b + ws.length ≤ a → m'.read? a = m.read? a := by
  induction ws generalizing m b with
  | nil =>
    cases h
    exact ⟨rfl, fun k hk => absurd hk (Nat.not_lt_zero k), fun _ _ => rfl⟩
  | cons w ws ih =>
    obtain ⟨m₁, hm₁, hfill⟩ := fill?_cons.1 h
    obtain ⟨-, hsize, hsame, hother, -⟩ := Memory.write?_cases hm₁
    obtain ⟨hsize', hwords, hrest⟩ := ih hfill
    rw [List.length_cons]
    refine ⟨hsize'.trans hsize, fun k hk => ?_, fun a ha => ?_⟩
    · cases k with
      | zero => exact (hrest b (by omega)).trans hsame
      | succ k =>
        rw [List.getElem?_cons_succ, ← hwords k (by omega)]
        congr 1
        omega
    · rw [hrest a (by omega), hother a (by omega)]

/-! ## The launch image -/

/-- Settles O41: filling a reset memory from address 0 leaves the image in every cell. -/
theorem launchPlacesImage : Obligations.LaunchPlacesImage := by
  intro n image h1 h256 hlen
  have hok : memWordsOk n = true := memWordsOk_iff.2 ⟨h1, h256⟩
  obtain ⟨m, hm⟩ := exists_fill? (m := (State.resetWith n).mem) (b := 0) (ws := image) (by simp [hlen])
  obtain ⟨hsize, hwords, -⟩ := fill?_cases hm
  refine ⟨(State.resetWith n).setMem m, by simp [State.launch?, imageOk, hok, hlen, hm], fun a => ?_, rfl,
    inv_of_running (Memory.fill?_wf hm (resetWith_mem_wf hok)) rfl rfl⟩
  rw [State.setMem_mem]
  rcases lt_or_ge a image.length with ha | ha
  · simpa using hwords a ha
  · rw [List.getElem?_eq_none ha, Memory.read?_eq_none_iff, hsize, resetWith_mem_size, ← hlen]
    exact ha

/-! ## The loader -/

/-- Pushing values fills memory from the cursor on (R152). -/
theorem pushAll?_eq (l : Loader) (vs : List Word) :
    l.pushAll? vs = (l.mem.fill? l.cursor vs).map fun m => ⟨m, l.cursor + vs.length⟩ := by
  induction vs generalizing l with
  | nil => rfl
  | cons v vs ih =>
    simp only [Loader.pushAll?, Loader.push?, Memory.fill?]
    cases l.mem.write? l.cursor v with
    | none => rfl
    | some m =>
      simp only [Option.map_some, Option.bind_some, ih, List.length_cons, Nat.add_assoc, Nat.add_comm 1]

/-- A load through the loader's calls is two fills of a reset memory (R152). -/
theorem loaded?_of_fill? {n : Nat} {program values : List Word} {m m' : Memory} (hok : memWordsOk n = true)
    (hm : (State.resetWith n).mem.fill? 0 program = some m) (hm' : m.fill? 32 values = some m') :
    State.loaded? n program values = some ((State.resetWith n).setMem m') := by
  have hm : (Loader.start (State.resetWith n).mem).mem.fill? Config.codeBase program = some m := hm
  have hm' : m.fill? (Loader.start (State.resetWith n).mem).cursor values = some m' := hm'
  simp [State.loaded?, hok, Loader.loadProgram?, hm, pushAll?_eq, hm']

/-- Settles O42: the values stand above the program, so each of the two fills leaves the other's words alone, and
both leave the rest as after reset. -/
theorem loaderPlacesProgramAndValues : Obligations.LoaderPlacesProgramAndValues := by
  intro n program values h256 hp32 hpn hvn
  have hok : memWordsOk n = true := memWordsOk_iff.2 ⟨by omega, h256⟩
  obtain ⟨m, hm⟩ := exists_fill? (m := (State.resetWith n).mem) (b := 0) (ws := program) (by simpa using hpn)
  obtain ⟨hsize, hprogram, hrest⟩ := fill?_cases hm
  rw [resetWith_mem_size] at hsize
  obtain ⟨m', hm'⟩ := exists_fill? (m := m) (b := 32) (ws := values) (by omega)
  obtain ⟨-, hvalues, hrest'⟩ := fill?_cases hm'
  have hzero (a : Nat) (ha : a < n) (hpa : program.length ≤ a) (hva : a < 32 ∨ 32 + values.length ≤ a) :
      m'.read? a = some 0 := by
    rw [hrest' a hva, hrest a (by omega), resetWith_read?_of_lt ha]
  refine ⟨_, loaded?_of_fill? hok hm hm', rfl, fun a ha => ?_, hvalues, fun a ha hpa h32 => ?_, fun a ha hva => ?_⟩
  · rw [State.setMem_mem, hrest' a (by omega)]
    simpa using hprogram a ha
  · exact hzero a ha hpa (.inl h32)
  · exact hzero a ha (by omega) (.inr hva)

/-! ## The host -/

theorem beforeFirstCycle_iff {s : State} : s.beforeFirstCycle = true ↔ s.running = true ∧ s.cycles = 0 := by
  simp [State.beforeFirstCycle]

theorem hostWrite?_of_lt {s : State} {a : Nat} (v : Word) (h : s.beforeFirstCycle = true) (ha : a < s.mem.size) :
    ∃ t, s.hostWrite? a v = some t := by
  obtain ⟨m, hm⟩ := exists_write?_of_lt v ha
  exact ⟨s.setMem m, by simp [State.hostWrite?, h, hm]⟩

/-- Settles O43: the two reads ask whether the machine is Running, the write whether a cycle has been counted. -/
theorem hostActsOnlyOutsideTheRun : Obligations.HostActsOnlyOutsideTheRun := by
  refine ⟨fun s hr => ?_, fun s hr => ?_, fun s t a v h => ?_, fun s a v => hostWrite?_of_lt v,
    fun s => beforeFirstCycle_iff⟩
  · exact ⟨fun a => by simp [State.hostRead?, hr], by simp [State.report?, hr]⟩
  · exact ⟨fun a => by simp [State.hostRead?, hr], by simp [State.report?, hr, Config.resultAddr]⟩
  · obtain ⟨hbefore, m, hm, rfl⟩ := hostWrite?_cases h
    obtain ⟨-, -, hsame, hother, -⟩ := Memory.write?_cases hm
    obtain ⟨hr, hcycles⟩ := beforeFirstCycle_iff.1 hbefore
    exact ⟨hr, hcycles, rfl, hsame, hother⟩

/-! ## The stand-in for a load -/

theorem fetchPlace_of_lt {s : State} (h : s.pc.toNat < s.mem.size) : s.fetchPlace = s.pc :=
  if_pos (s.mem.inRange_iff _ |>.2 h)

theorem fetchPlace_lt {s : State} (h : 1 ≤ s.mem.size) : s.fetchPlace.toNat < s.mem.size := by
  unfold State.fetchPlace
  split
  · next hpc => exact (s.mem.inRange_iff _).1 hpc
  · exact h

theorem withFetchWord_mem {s : State} (nbits w : Nat) (h : 1 ≤ s.mem.size) :
    s.mem.write? s.fetchPlace.toNat (tableWord nbits w) = some (s.withFetchWord nbits w).mem := by
  obtain ⟨m, hm⟩ := exists_write?_of_lt (tableWord nbits w) (fetchPlace_lt h)
  simp [State.withFetchWord, hm]

/-- Settles O45: the word is written where the next fetch reads it, which is `pc` itself where `pc` has a cell. -/
theorem withFetchWordIsFetchedNext : Obligations.WithFetchWordIsFetchedNext := by
  intro s nbits w h
  obtain ⟨-, -, hsame, hother, -⟩ := Memory.write?_cases (withFetchWord_mem nbits w h)
  refine ⟨rfl, hsame, fun hr hpc => ⟨?_, ?_⟩⟩
  · obtain ⟨hhalt, hfault⟩ := s.running_iff.1 hr
    simp [State.withFetchWord, fetchPlace_of_lt hpc, hr, hhalt, hfault]
  · rw [fetchPlace_of_lt hpc] at hother
    exact hother

end Sys2Proof.Proofs
end
